-- ==== Sys2Proof/Word.lean ====
section
/-!
DEFINITION. The plain data types of the block: bytes, the 32-bit command and bus word, 32-byte arrays, and bit
vectors (00_scope.md R7).
-/

namespace Sys2Proof

/-- A byte: 8 bits, bit 0 the least significant (R7). -/
abbrev Byte := BitVec 8

/-- A 32-bit command word or bus value, bit 0 the least significant (R7). -/
abbrev Word := BitVec 32

/-- A byte array `A[0..31]`, indexed from 0 (R7): a seed, an input or a digest. -/
abbrev Bytes32 := Vector Byte 32

/-- A bit vector `v[0..n-1]` (R7): "a bit vector is a list, not a number". -/
abbrev Bits (n : Nat) := Vector Bool n

end Sys2Proof
end

