-- ==== Sys2Proof/Syntax.lean ====
section
/-!
DEFINITION. The commands of the TCB command set, version 1 (30_encoding.md R52): one constructor per row of
spec/opcode_table.json, each with the fields its format uses (R51).
-/

namespace Sys2Proof

/-- A command. Operand fields are the unsigned bytes of the command word "as they stand" (R55). -/
inductive Instr where
  /-- `NOP` (R120). -/
  | nop
  /-- `MAT slen` (R73). -/
  | mat (slen : Byte)
  /-- `ENC ilen` (R84). -/
  | enc (ilen : Byte)
  /-- `DEC` (R85). -/
  | dec
  /-- `SRST` (R95). -/
  | srst
  /-- `LFWD arg`, `arg` the layer index (R96). -/
  | lfwd (arg : Byte)
  /-- `LOOKUP slen` (R107). -/
  | lookup (slen : Byte)
  /-- `HASH slen, ilen` (R116). -/
  | hash (slen ilen : Byte)
  /-- `HASHX ilen` (R117). -/
  | hashx (ilen : Byte)
  /-- `CLRERR` (R121). -/
  | clrerr
deriving DecidableEq, Repr

end Sys2Proof
end

