-- ==== Sys2Proof/WellFormed.lean ====
section
/-!
DEFINITION. Which commands as terms have an encoding: every value of a length field does (30_encoding.md R57); a
layer index does when it is at most 65 (R53 step 4, R56).
-/

namespace Sys2Proof

/-- The largest layer index LFWD admits: the compression layer (R53 step 4). -/
abbrev lastLayer : Byte := 65#8

/-- The command has an encoding (R56, R57), as a Bool. -/
def Instr.wellFormed : Instr → Bool
  | .lfwd arg => decide (arg ≤ lastLayer)
  | .nop => true
  | .mat _ => true
  | .enc _ => true
  | .dec => true
  | .srst => true
  | .lookup _ => true
  | .hash _ _ => true
  | .hashx _ => true
  | .clrerr => true

/-- The command has an encoding (R56, R57). -/
abbrev Instr.WellFormed (i : Instr) : Prop := i.wellFormed = true

end Sys2Proof
end

