-- ==== Sys2Proof/Decode.lean ====
section
/-!
DEFINITION. The decoder of command words (30_encoding.md R50 to R57) and, after it, the encoder (R50, R52, R58).
The decoder is total: a word that is no well-formed command is rejected by the name of the step of R53 that rejects
it.
-/

namespace Sys2Proof

/-- Bits 31:24 of a command word: the opcode (R50). -/
def opField (w : Word) : Byte := w.extractLsb' 24 8

/-- Bits 23:16 of a command word: the declared seed length (R50). -/
def slenField (w : Word) : Byte := w.extractLsb' 16 8

/-- Bits 15:8 of a command word: the declared input length (R50). -/
def ilenField (w : Word) : Byte := w.extractLsb' 8 8

/-- Bits 7:0 of a command word: the layer index (R50). -/
def argField (w : Word) : Byte := w.extractLsb' 0 8

/-- The five formats (R51). -/
inductive Format where
  | z
  | s
  | i
  | si
  | a
deriving DecidableEq, Repr

/-- The format uses the field `slen` (R51). -/
def usesSlen : Format → Bool
  | .s | .si => true
  | .z | .i | .a => false

/-- The format uses the field `ilen` (R51). -/
def usesIlen : Format → Bool
  | .i | .si => true
  | .z | .s | .a => false

/-- The format uses the field `arg` (R51). -/
def usesArg : Format → Bool
  | .a => true
  | .z | .s | .i | .si => false

/-- The rows of the opcode map (R52). -/
inductive Opcode where
  | nop
  | mat
  | enc
  | dec
  | srst
  | lfwd
  | lookup
  | hash
  | hashx
  | clrerr
deriving DecidableEq, Repr

/-- The opcode value of a row (R52). -/
def opcodeByte : Opcode → Byte
  | .nop => 0x00#8
  | .mat => 0x01#8
  | .enc => 0x02#8
  | .dec => 0x03#8
  | .srst => 0x04#8
  | .lfwd => 0x05#8
  | .lookup => 0x06#8
  | .hash => 0x07#8
  | .hashx => 0x08#8
  | .clrerr => 0x09#8

/-- The format of a row (R52). -/
def opcodeFormat : Opcode → Format
  | .nop => .z
  | .mat => .s
  | .enc => .i
  | .dec => .z
  | .srst => .z
  | .lfwd => .a
  | .lookup => .s
  | .hash => .si
  | .hashx => .i
  | .clrerr => .z

/-- The row whose opcode value is `b`; none for the reserved values 0x0A to 0xFF (R52). -/
def opcodeOf (b : Byte) : Option Opcode :=
  if b = 0x00#8 then some .nop
  else if b = 0x01#8 then some .mat
  else if b = 0x02#8 then some .enc
  else if b = 0x03#8 then some .dec
  else if b = 0x04#8 then some .srst
  else if b = 0x05#8 then some .lfwd
  else if b = 0x06#8 then some .lookup
  else if b = 0x07#8 then some .hash
  else if b = 0x08#8 then some .hashx
  else if b = 0x09#8 then some .clrerr
  else none

/-- Every field of `w` that the format does not use is zero (R51, R53 step 3). -/
def unusedFieldsZero (f : Format) (w : Word) : Bool :=
  (usesSlen f || slenField w == 0#8) && (usesIlen f || ilenField w == 0#8) && (usesArg f || argField w == 0#8)

/-- The command of a row, with the fields its format uses (R52, R53 step 5). -/
def instrOf (o : Opcode) (slen ilen arg : Byte) : Instr :=
  match o with
  | .nop => .nop
  | .mat => .mat slen
  | .enc => .enc ilen
  | .dec => .dec
  | .srst => .srst
  | .lfwd => .lfwd arg
  | .lookup => .lookup slen
  | .hash => .hash slen ilen
  | .hashx => .hashx ilen
  | .clrerr => .clrerr

/-- Why a word is no command: the step of R53 that rejects it (R56). -/
inductive DecodeError where
  /-- Step 2: no row has this `op`. -/
  | reservedOpcode
  /-- Step 3: a field the row's format must have zero is not. -/
  | unusedFieldNonzero
  /-- Step 4: LFWD with `arg > 65`. -/
  | layerOutOfRange
deriving DecidableEq, Repr

/-- Steps 2 to 5 of R53, in that order. -/
def decode (w : Word) : Except DecodeError Instr :=
  match opcodeOf (opField w) with
  | none => .error .reservedOpcode
  | some o =>
    if unusedFieldsZero (opcodeFormat o) w then
      if o = .lfwd ∧ lastLayer < argField w then .error .layerOutOfRange
      else .ok (instrOf o (slenField w) (ilenField w) (argField w))
    else .error .unusedFieldNonzero

/-- The decoder's reading of a word given as spec/opcode_table.json numbers its bits: `nbits` bits of `w`, the bits
above them 0. A command is one 32-bit word and the value of the bus write is the word itself (R34, R50), so there is
no byte order to undo. -/
def decodeTableWord (nbits w : Nat) : Option Instr :=
  match decode (BitVec.ofNat 32 (w % 2 ^ nbits)) with
  | .ok i => some i
  | .error _ => none

/-- A command word from its four fields (R50). -/
def assembleWord (op slen ilen arg : Byte) : Word := op ++ slen ++ ilen ++ arg

/-- The word of a command (R52, R58): unused fields are zero. -/
def encode : Instr → Word
  | .nop => assembleWord 0x00#8 0#8 0#8 0#8
  | .mat slen => assembleWord 0x01#8 slen 0#8 0#8
  | .enc ilen => assembleWord 0x02#8 0#8 ilen 0#8
  | .dec => assembleWord 0x03#8 0#8 0#8 0#8
  | .srst => assembleWord 0x04#8 0#8 0#8 0#8
  | .lfwd arg => assembleWord 0x05#8 0#8 0#8 arg
  | .lookup slen => assembleWord 0x06#8 slen 0#8 0#8
  | .hash slen ilen => assembleWord 0x07#8 slen ilen 0#8
  | .hashx ilen => assembleWord 0x08#8 0#8 ilen 0#8
  | .clrerr => assembleWord 0x09#8 0#8 0#8 0#8

/-- The exact word of CLRERR, the only one a lane with a latched error accepts (R53 step 1, R134). -/
def clrErrWord : Word := 0x09000000#32

end Sys2Proof
end

