-- ==== Sys2Proof/Config.lean ====
section
/-!
DEFINITION. The fixed sizes of the design (00_scope.md R5), the defaults of its open parameters (R6), and the one
free function of the model, the keystream `KS` (R6, R65).
-/

namespace Sys2Proof.Config

/-- `B`: width in bits of the input vector and of the final vector (R5). -/
abbrev inputWidth : Nat := 256

/-- `H`: width in bits of the hidden state (R5). -/
abbrev hiddenWidth : Nat := 1024

/-- `R`: number of hidden rounds (R5). -/
abbrev hiddenRounds : Nat := 64

/-- `NLAYERS`: one expansion, 64 hidden rounds, one compression (R5). -/
abbrev layers : Nat := 66

/-- `NE`: weights in the expansion matrix (R5). -/
abbrev expansionWeights : Nat := 262144

/-- `NH`: weights in one hidden matrix (R5). -/
abbrev hiddenWeights : Nat := 1048576

/-- `NC`: weights in the compression matrix (R5). -/
abbrev compressionWeights : Nat := 262144

/-- `NW`: weights in a whole model, and keystream bytes one materialisation consumes (R5, R66). -/
abbrev modelWeights : Nat := 67633152

/-- The length in bytes of a seed, and of an input, that raises no length error (R5, R55). -/
abbrev operandLength : Byte := 32#8

/-- The bytes of one lane's register window (R31). -/
abbrev windowBytes : Nat := 256

/-- The default of the open parameter `BASE` (R6). -/
abbrev defaultBase : Nat := 0

/-- The default of the open parameter `NLANES` (R6). -/
abbrev defaultLanes : Nat := 1

/-- The type of a keystream: `KS(seed, g)` is the byte that decides weight `g` of the model of `seed` (R6, R65). -/
abbrev KeyStream := Bytes32 → Nat → Byte

/-- `KS`, the keyed keystream: "a total function of its two arguments" of which no rule assumes anything else (R6,
R65, U1). A free value: it has no body, so nothing can be proved of any of its bytes. It is only ever applied to
`g` in [0, NW). Log 3. -/
opaque ks : KeyStream

end Sys2Proof.Config
end

