-- ==== Sys2Proof/Machine/State.lean ====
section
/-!
DEFINITION. The state of the block (10_state.md R10), the host's moves (20_memory.md R40), the reset state (R28), and
the reasons a step can stop.
-/

namespace Sys2Proof.Machine

/-- The error codes `ERR` can hold (60_exceptions.md R130). Codes 6 and 7 "never occur" and have no constructor. -/
inductive ErrCode where
  /-- 0: no latched error. -/
  | none
  /-- 1: `slen != 32`. -/
  | invalidSeedLength
  /-- 2: `ilen != 32`. -/
  | invalidInputLength
  /-- 3: `GRANT = 0` at a rebuild. -/
  | allocationFailure
  /-- 4: `VALID = 0` when a layer is to run without a lookup. -/
  | noModel
  /-- 5: the word is not a well-formed command. -/
  | illegalCommand
deriving DecidableEq, Repr

/-- One lane's registers (R10, R13 to R20). -/
structure Lane where
  /-- `SEED[0..31]` (R13). -/
  seed : Bytes32
  /-- `INPUT[0..31]` (R14). -/
  input : Bytes32
  /-- `DIGEST[0..31]` (R15). -/
  digest : Bytes32
  /-- Scratch buffer `S0[0..1023]` (R16). -/
  s0 : Bits 1024
  /-- Scratch buffer `S1[0..1023]` (R16). -/
  s1 : Bits 1024
  /-- `SEL`: the current buffer is `S0` when false, `S1` when true (R17). -/
  sel : Bool
  /-- `ERR` (R18). -/
  err : ErrCode
  /-- `DVALID` (R19). -/
  dvalid : Bool
  /-- `HIT` (R20). -/
  hit : Bool
deriving DecidableEq, Repr

/-- One move of the host (R40). Addresses are host byte addresses; `n` is the access width in bytes; the value of an
`n`-byte write is the low `8n` bits of `v` (R34). -/
inductive HostMove where
  /-- `MemRead(addr, n)`. -/
  | read (addr n : Nat)
  /-- `MemWrite(addr, n, v)`. -/
  | write (addr n : Nat) (v : Word)
  /-- The reset event (R150). -/
  | reset
deriving DecidableEq, Repr

/-- One pending input: a host move, and the `GRANT` bit the environment presents while it takes effect (R27, R72;
logs 1 and 2). -/
structure HostInput where
  move : HostMove
  grant : Bool
deriving DecidableEq, Repr

/-- What the host gets back from a move (R40). -/
inductive Reply where
  /-- Nothing: the answer to an accepted write and to reset. -/
  | nothing
  /-- The bytes read, zero-extended to 32 bits. -/
  | data (v : Word)
  /-- The failure indication of a refused access (R37, U7). -/
  | refused
deriving DecidableEq, Repr

/-- The state. `cache` and `lanes` are the block's (R10); `base` and the length of `lanes` are its parameters `BASE`
and `NLANES`, which no step changes (R6; log 5); `pending`, `grant`, `cur` and `reply` are the model's own (logs 1, 2,
8, 10). -/
structure State where
  /-- `BASE` (R6, R31). -/
  base : Nat
  /-- The cache entry, held as R26 says: none when `VALID = 0`, the seed `TAG` when `VALID = 1`; `W` is then the model
  of that seed (R23 to R26; log 4). -/
  cache : Option Bytes32
  /-- The lanes, lane 0 first; their number is `NLANES` (R10, R141). -/
  lanes : List Lane
  /-- The host's moves that have not taken effect yet, in the total order in which they will (R45, R46; logs 1, 6). -/
  pending : List HostInput
  /-- The `GRANT` bit the environment presents in the present step (R72; log 2). -/
  grant : Bool
  /-- The lane that runs the present command, the spec's lane `l` (R9; log 10). -/
  cur : Nat
  /-- What the host got back from its last move (R40; log 8). -/
  reply : Reply
deriving DecidableEq, Repr

/-- Why the machine stops. The spec treats no point of the block as a fault (93_implementation_defined.md section 1):
neither of these is an error of a command, which is a next state (R132). -/
inductive Fault where
  /-- Raised by a host access whose address lies in no lane's window (R31): "not a move of this model at all" (U8).
  Safe: the model stops where the host would get an answer that is not the block's. Log 7. -/
  | outsideBlock
  /-- Raised by a command when the state's `cur` names no lane. No `step` reaches it: `step` issues a command only on a
  lane whose window was addressed. Safe. Log 10. -/
  | noSuchLane
deriving DecidableEq, Repr

/-- Why an instruction has no meaning. -/
inductive Refusal where
  /-- The instruction is not modelled. No arm of `exec` raises it: every command has its meaning. Safe. -/
  | notModelled (mnemonic : String)
deriving DecidableEq, Repr

/-- 32 zero bytes. -/
def zeroBytes : Bytes32 := Vector.replicate 32 0#8

/-- `0^1024`. -/
def zeroBits : Bits 1024 := Vector.replicate 1024 false

/-- A lane after reset (R28). -/
def Lane.reset : Lane :=
  { seed := zeroBytes, input := zeroBytes, digest := zeroBytes, s0 := zeroBits, s1 := zeroBits, sel := false,
    err := .none, dvalid := false, hit := false }

/-- The block after reset (R28, R150), with its parameters at their defaults (R6) and no host move pending. The model's
own fields are DESIGN CHOICE (logs 1, 2, 8, 10). -/
def State.reset : State :=
  { base := Config.defaultBase, cache := none, lanes := List.replicate Config.defaultLanes Lane.reset, pending := [],
    grant := true, cur := 0, reply := .nothing }

end Sys2Proof.Machine
end

