-- ==== Sys2Proof/Machine/Ops.lean ====
section
/-!
DEFINITION. The named operations over the block's registers that the commands share: what a command can reach, taking
an error and returning from it (60_exceptions.md R132, R136), the scratch buffers (10_state.md R16, R17), and the bytes
of a 32-byte register (20_memory.md R34).
-/

namespace Sys2Proof.Machine

/-! ## Bit vectors of the scratch buffers -/

/-- `v[t]`, and 0 beyond the vector's end (no rule reads there). -/
def bitAt {n : Nat} (v : Bits n) (t : Nat) : Bool := v[t]?.getD false

/-- `v ++ 0^(1024 - n)`: indices 0 to `n - 1` are `v`, the rest zero (R16). -/
def padBits {n : Nat} (v : Bits n) : Bits 1024 := Vector.ofFn fun t : Fin 1024 => bitAt v t.val

/-- `v[0..255]` of a scratch buffer. -/
def lowBits (v : Bits 1024) : Bits 256 := Vector.ofFn fun t : Fin 256 => bitAt v t.val

/-! ## Lanes -/

/-- `S[k]`: `S0` for `k = 0` (false), `S1` for `k = 1` (true) (R16). -/
def Lane.buffer (l : Lane) (k : Bool) : Bits 1024 := if k then l.s1 else l.s0

/-- The current buffer `S[SEL]` (R17). -/
def Lane.current (l : Lane) : Bits 1024 := l.buffer l.sel

/-- `S[k] <- v`, all 1024 bits (R42). -/
def Lane.setBuffer (l : Lane) (k : Bool) (v : Bits 1024) : Lane :=
  if k then { l with s1 := v } else { l with s0 := v }

/-- `S0 <- 0^1024 ; S1 <- 0^1024 ; SEL <- 0` (R72, R95, R98). -/
def Lane.clearScratch (l : Lane) : Lane := { l with s0 := zeroBits, s1 := zeroBits, sel := false }

/-- `DIGEST <- d ; DVALID <- 1` (R15, R19, R85, R98). -/
def Lane.setDigest (l : Lane) (d : Bytes32) : Lane := { l with digest := d, dvalid := true }

/-- `HIT <- b` (R20, R105). -/
def Lane.setHit (l : Lane) (b : Bool) : Lane := { l with hit := b }

/-- Taking an error, the block's trap entry: `Fail(code)`: `ERR <- code ; DVALID <- 0`, nothing saved and nothing else
written (R132, R137). -/
def Lane.fail (l : Lane) (e : ErrCode) : Lane := { l with err := e, dvalid := false }

/-- Returning from an error, CLRERR: `ERR <- 0`; nothing was saved, so nothing is restored (R121, R136). -/
def Lane.clearError (l : Lane) : Lane := { l with err := .none }

/-! ## What one command can reach -/

/-- The part of the state a command reads and writes: the shared cache entry and the issuing lane (R54: "all other
writes are to the issuing lane"). -/
structure View where
  cache : Option Bytes32
  lane : Lane
deriving DecidableEq, Repr

/-- `raise e`: the shared state stays, the lane takes the error (R132). -/
def View.raise (v : View) (e : ErrCode) : View := { v with lane := v.lane.fail e }

/-- Applies a lane operation. -/
def View.onLane (v : View) (f : Lane → Lane) : View := { v with lane := f v.lane }

/-- How a procedure of several commands ends: it goes on, or it has raised an error and the command ends with it (R132:
"the command ends here; no later line of its pseudocode runs"). -/
inductive Progress where
  | goesOn (v : View)
  | ended (v : View)
deriving DecidableEq, Repr

/-- The state a procedure leaves, however it ended. -/
def Progress.view : Progress → View
  | .goesOn v => v
  | .ended v => v

/-- What follows a procedure: `f` where it goes on, nothing where an error ended the command. -/
def Progress.andThen (p : Progress) (f : View → View) : View :=
  match p with
  | .goesOn v => f v
  | .ended v => v

/-- The state with the shared part and the issuing lane as in `v`; every other lane and field as before. -/
def State.withView (s : State) (v : View) : State :=
  { s with cache := v.cache, lanes := s.lanes.set s.cur v.lane }

/-- Runs one command on the issuing lane, as one atomic transition (R44). -/
def runOn (s : State) (f : View → View) : Host.Outcome State Fault Refusal :=
  match s.lanes[s.cur]? with
  | none => .fault .noSuchLane
  | some l => .next (s.withView (f { cache := s.cache, lane := l }))

/-! ## The bytes of a 32-byte register -/

/-- Byte `j` of an `n`-byte bus value: bits `8j+7 : 8j` (R34). -/
def valueByte (v : Word) (j : Nat) : Byte := v.extractLsb' (8 * j) 8

/-- The bus value of the bytes of an access, the byte at the lowest address first: little-endian (R34). -/
def wordOfBytes : List Byte → Word
  | [] => 0#32
  | b :: bs => b.setWidth 32 ||| wordOfBytes bs <<< 8

/-- Byte `i` of a 32-byte register (no rule reads beyond byte 31). -/
def byteAt (a : Bytes32) (i : Nat) : Byte := a[i]?.getD 0#8

/-- An `n`-byte read of a 32-byte register from byte `i` on (R34, R36). -/
def readBytes (a : Bytes32) (i n : Nat) : Word := wordOfBytes ((List.range n).map fun j => byteAt a (i + j))

/-- An `n`-byte write of a 32-byte register from byte `i` on: "stores the written bytes at the addressed indices and
changes nothing else" (R34, R35). -/
def writeBytes (a : Bytes32) (i n : Nat) (v : Word) : Bytes32 :=
  Vector.ofFn fun k : Fin 32 => if i ≤ k.val ∧ k.val < i + n then valueByte v (k.val - i) else a[k]

end Sys2Proof.Machine
end

