-- ==== Sys2Proof/Machine/Operands.lean ====
section
/-!
DEFINITION. The operands of the commands: the declared lengths and the layer index of the command word (30_encoding.md
R55, R57), the ternary map and the model of a seed (40_seed_materializer.md R67, R70), and where each matrix lies in
the model store (R68, R69).
-/

namespace Sys2Proof.Machine

/-- A declared length is 32, "the one value that does not raise a length error" (R55, R57). -/
def lengthOk (len : Byte) : Bool := len == Config.operandLength

/-- A layer index LFWD admits: 0 to 65 (R53 step 4, R55). -/
def layerOk (arg : Byte) : Bool := decide (arg ≤ lastLayer)

/-- A ternary weight. How it is stored "is not architectural" (R25). -/
inductive Ternary where
  | zero
  | pos
  | neg
deriving DecidableEq, Repr

/-- The value of a ternary weight: -1, 0 or +1. -/
def ternaryValue : Ternary → Int
  | .zero => 0
  | .pos => 1
  | .neg => -1

/-- `tern(b)`: `b mod 4` 0 or 1 gives 0, 2 gives +1, 3 gives -1 (R67). -/
def tern (b : Byte) : Ternary :=
  if b.toNat % 4 = 2 then .pos else if b.toNat % 4 = 3 then .neg else .zero

/-- A model store `W`, or a matrix row laid out flat: a weight for each index. -/
abbrev Weights := Nat → Ternary

/-- A matrix: the entry in row `j` and column `i`. -/
abbrev Matrix := Nat → Nat → Ternary

/-- `Mat(seed)[g] = tern(KS(seed, g))` (R70), for a keystream `ks`. -/
def materialize (ks : Config.KeyStream) (seed : Bytes32) : Weights := fun g => tern (ks seed g)

/-- `W` while the cache entry holds the model of `tag` (R26). -/
def modelOf (tag : Bytes32) : Weights := materialize Config.ks tag

/-- `OFF_E` (R68). -/
def offE : Nat := 0

/-- `OFF_H(r)` (R68). -/
def offH (r : Nat) : Nat := 262144 + 1048576 * r

/-- `OFF_C` (R68). -/
def offC : Nat := 67371008

/-- `E[j][i] = W[OFF_E + 256*j + i]` (R69). -/
def expansionMatrix (w : Weights) : Matrix := fun j i => w (offE + 256 * j + i)

/-- `Hd[r][j][i] = W[OFF_H(r) + 1024*j + i]` (R69). -/
def hiddenMatrix (w : Weights) (r : Nat) : Matrix := fun j i => w (offH r + 1024 * j + i)

/-- `C[j][i] = W[OFF_C + 1024*j + i]` (R69). -/
def compressionMatrix (w : Weights) : Matrix := fun j i => w (offC + 1024 * j + i)

/-- `VALID` (R23). -/
def State.valid (s : State) : Bool := s.cache.isSome

/-- `W[g]` for `g` below `NW` while `VALID = 1`; nothing while `VALID = 0` (R25, R26). -/
def State.weight (s : State) (g : Nat) : Option Ternary :=
  if g < Config.modelWeights then s.cache.map fun tag => modelOf tag g else none

end Sys2Proof.Machine
end

