-- ==== Sys2Proof/Machine/Flags.lean ====
section
/-!
DEFINITION. The flags as the host reads them: the error code numbers (60_exceptions.md R130) and the word `STATUS`
(10_state.md R21); and the one flag a computation yields, the strict sign threshold of a layer's sum (42_forward_pipeline.md
R93).
-/

namespace Sys2Proof.Machine

/-- The three bits of `ERR` (R18, R130). -/
def errBits : ErrCode → BitVec 3
  | .none => 0#3
  | .invalidSeedLength => 1#3
  | .invalidInputLength => 2#3
  | .allocationFailure => 3#3
  | .noModel => 4#3
  | .illegalCommand => 5#3

/-- `STATUS`, assembled from the flags at the moment of the read (R21): `ERR` in 2:0, 0 in 3, `DVALID` in 4, `SEL` in 5,
`MVALID` (the shared `VALID`) in 6, `HIT` in 7, zeros in 31:8. -/
def statusWord (mvalid : Bool) (l : Lane) : Word :=
  0#24 ++ BitVec.ofBool l.hit ++ BitVec.ofBool mvalid ++ BitVec.ofBool l.sel ++ BitVec.ofBool l.dvalid ++ 0#1 ++
    errBits l.err

/-- An output bit of a layer: 1 exactly when the sum is strictly greater than 0 (R91 step 4, R93). -/
def positiveSum (acc : Int) : Bool := decide (0 < acc)

end Sys2Proof.Machine
end

