-- ==== Sys2Proof/Machine/BitCodec.lean ====
section
/-!
DEFINITION. The bit codec (41_bitcodec.md R80, R81) and the commands ENC and DEC (R84, R85).
-/

namespace Sys2Proof.Machine

/-- `encode`: `v[8*k + i] = bit (7 - i) of X[31 - k]` (R80). -/
def encodeBits (x : Bytes32) : Bits 256 :=
  Vector.ofFn fun t : Fin 256 => (byteAt x (31 - t.val / 8)).getLsbD (7 - t.val % 8)

/-- The byte of eight bits, the first the most significant: the sum over `i` of `b[i] * 2^(7 - i)` (R81). -/
def packByte (b : Nat → Bool) : Byte :=
  BitVec.ofNat 8 (((List.range 8).map fun i => (b i).toNat * 2 ^ (7 - i)).sum)

/-- `decode`: `Y[31 - k] = sum over i of v[8*k + i] * 2^(7 - i)` (R81). -/
def decodeBits (v : Bits 256) : Bytes32 :=
  Vector.ofFn fun m : Fin 32 => packByte fun i => bitAt v (8 * (31 - m.val) + i)

/-- `S[SEL] <- encode(INPUT) ++ 0^768`; `SEL` is not changed (R84). -/
def Lane.encodeInput (l : Lane) : Lane := l.setBuffer l.sel (padBits (encodeBits l.input))

/-- `DIGEST <- decode(S[SEL][0..255]) ; DVALID <- 1` (R85). -/
def Lane.decodeCurrent (l : Lane) : Lane := l.setDigest (decodeBits (lowBits l.current))

/-- `ENC ilen` (R84). -/
def encCommand (ilen : Byte) (v : View) : View :=
  if lengthOk ilen then v.onLane Lane.encodeInput else v.raise .invalidInputLength

/-- The meaning of ENC. -/
def execEnc (ilen : Byte) (s : State) : Host.Outcome State Fault Refusal := runOn s (encCommand ilen)

/-- The meaning of DEC (R85): it "cannot fail once decoded". -/
def execDec (s : State) : Host.Outcome State Fault Refusal := runOn s fun v => v.onLane Lane.decodeCurrent

end Sys2Proof.Machine
end

