-- ==== Sys2Proof/Machine/ForwardPipeline.lean ====
section
/-!
DEFINITION. The multiply-accumulate datapath: the layer function (42_forward_pipeline.md R90 to R93), the layer step
(R94, R97), the whole forward pass (R98), and the commands SRST and LFWD (R95, R96). Sums are exact integers (R8, R99,
R100).
-/

namespace Sys2Proof.Machine

/-- `sgn(b) = 2*b - 1` (R90). -/
def sgn (b : Bool) : Int := if b then 1 else -1

/-- The exact sum `f 0 + f 1 + ... + f (n - 1)`. -/
def sumTo : Nat → (Nat → Int) → Int
  | 0, _ => 0
  | n + 1, f => sumTo n f + f n

/-- `acc[j]` of `layer_forward` (R91 steps 1 to 3): the dot product of row `j` with the mapped input, plus the residual
exactly when the layer is square (R92). -/
def layerSum {inDim : Nat} (outDim : Nat) (m : Matrix) (v : Bits inDim) (j : Nat) : Int :=
  sumTo inDim (fun i => ternaryValue (m j i) * sgn (bitAt v i)) + if inDim = outDim then sgn (bitAt v j) else 0

/-- `layer_forward(M, inDim, outDim, v)` (R91). -/
def layerForward {inDim : Nat} (outDim : Nat) (m : Matrix) (v : Bits inDim) : Bits outDim :=
  Vector.ofFn fun j : Fin outDim => positiveSum (layerSum outDim m v j.val)

/-- The 1024 bits layer `layer` writes, from the buffer it reads (R94, R97): layer 0 is the expansion, 1 to 64 hidden
round `layer - 1`, 65 the compression, whose 256 bits are followed by zeros. -/
def layerOutput (w : Weights) (layer : Nat) (buf : Bits 1024) : Bits 1024 :=
  if layer = 0 then padBits (layerForward 1024 (expansionMatrix w) (lowBits buf))
  else if layer ≤ 64 then padBits (layerForward 1024 (hiddenMatrix w (layer - 1)) buf)
  else padBits (layerForward 256 (compressionMatrix w) buf)

/-- `LayerStep(L)`: the other buffer takes the layer's output of the current one, then the two swap (R97). -/
def Lane.layerStep (w : Weights) (layer : Nat) (l : Lane) : Lane :=
  { l.setBuffer (!l.sel) (layerOutput w layer l.current) with sel := !l.sel }

/-- Layer steps `0, 1, ..., n - 1`, in this order (R98). -/
def Lane.layerSteps (w : Weights) : Nat → Lane → Lane
  | 0, l => l
  | n + 1, l => (Lane.layerSteps w n l).layerStep w n

/-- `Pipeline()`: the whole forward pass on the issuing lane, from `INPUT` to `DIGEST` (R98). -/
def Lane.pipeline (w : Weights) (l : Lane) : Lane :=
  (Lane.layerSteps w Config.layers l.clearScratch.encodeInput).decodeCurrent

/-- Runs `f` with the model now in the store; with none it raises NoModel and nothing else happens (R96, R117). -/
def View.withModel (v : View) (f : Weights → Lane → Lane) : View :=
  match v.cache with
  | none => v.raise .noModel
  | some tag => v.onLane (f (modelOf tag))

/-- `LFWD L` (R96). A layer index over 65 has no encoding: the word is illegal (R53 step 4), which ranks before NoModel
(R135). -/
def lfwdCommand (arg : Byte) (v : View) : View :=
  if layerOk arg then v.withModel fun w => Lane.layerStep w arg.toNat else v.raise .illegalCommand

/-- The meaning of SRST (R95). -/
def execSrst (s : State) : Host.Outcome State Fault Refusal := runOn s fun v => v.onLane Lane.clearScratch

/-- The meaning of LFWD. -/
def execLfwd (arg : Byte) (s : State) : Host.Outcome State Fault Refusal := runOn s (lfwdCommand arg)

end Sys2Proof.Machine
end

