-- ==== Sys2Proof/Machine/SeedMaterializer.lean ====
section
/-!
DEFINITION. The weight-matrix expansion pipeline: the procedure `Rebuild` (40_seed_materializer.md R72) and the command
MAT (R73).
-/

namespace Sys2Proof.Machine

/-- `Rebuild(seed)` on the issuing lane (R72). With `GRANT = 0` the cache entry is empty afterwards and the lane takes
AllocationFailure; with `GRANT = 1` the entry holds the model of `seed` and the lane's scratch is fresh. The seed is
used whole and as it stands (R74). -/
def rebuild (grant : Bool) (seed : Bytes32) (v : View) : Progress :=
  if grant then .goesOn { cache := some seed, lane := v.lane.clearScratch }
  else .ended { cache := none, lane := v.lane.fail .allocationFailure }

/-- `MAT slen` (R73). -/
def matCommand (slen : Byte) (grant : Bool) (v : View) : View :=
  if lengthOk slen then (rebuild grant v.lane.seed v).view else v.raise .invalidSeedLength

/-- The meaning of MAT. -/
def execMat (slen : Byte) (s : State) : Host.Outcome State Fault Refusal := runOn s (matCommand slen s.grant)

end Sys2Proof.Machine
end

