-- ==== Sys2Proof/Machine/PrecomputeCache.lean ====
section
/-!
DEFINITION. The model cache: the procedure `Lookup` (43_precompute_cache.md R105) and the command LOOKUP (R107).
-/

namespace Sys2Proof.Machine

/-- `Lookup(seed)` on the issuing lane (R105): a hit when `VALID = 1` and all 32 bytes of `TAG` equal the seed, and then
nothing but `HIT` changes and `GRANT` is not drawn; otherwise a miss and a rebuild, which may raise AllocationFailure. -/
def lookupModel (grant : Bool) (seed : Bytes32) (v : View) : Progress :=
  if v.cache = some seed then .goesOn (v.onLane fun l => l.setHit true)
  else rebuild grant seed (v.onLane fun l => l.setHit false)

/-- `LOOKUP slen` (R107). -/
def lookupCommand (slen : Byte) (grant : Bool) (v : View) : View :=
  if lengthOk slen then (lookupModel grant v.lane.seed v).view else v.raise .invalidSeedLength

/-- The meaning of LOOKUP. -/
def execLookup (slen : Byte) (s : State) : Host.Outcome State Fault Refusal := runOn s (lookupCommand slen s.grant)

end Sys2Proof.Machine
end

