-- ==== Sys2Proof/Machine/HashFacade.lean ====
section
/-!
DEFINITION. The command sequencer's end-to-end commands HASH and HASHX (44_hash_facade.md R116, R117) and the
housekeeping commands NOP and CLRERR (R120, R121).
-/

namespace Sys2Proof.Machine

/-- `HASH slen, ilen` (R116): both lengths are tested before the cache is touched, the seed's first (R135); then the
lookup; then, unless an AllocationFailure ended the command, the pipeline under the model now in the store. -/
def hashCommand (slen ilen : Byte) (grant : Bool) (v : View) : View :=
  if lengthOk slen then
    if lengthOk ilen then (lookupModel grant v.lane.seed v).andThen fun u => u.withModel Lane.pipeline
    else v.raise .invalidInputLength
  else v.raise .invalidSeedLength

/-- `HASHX ilen` (R117): the pipeline under the model now in the store, whatever seed it belongs to; the length is
tested before the model (R135). -/
def hashxCommand (ilen : Byte) (v : View) : View :=
  if lengthOk ilen then v.withModel Lane.pipeline else v.raise .invalidInputLength

/-- The meaning of HASH. -/
def execHash (slen ilen : Byte) (s : State) : Host.Outcome State Fault Refusal := runOn s (hashCommand slen ilen s.grant)

/-- The meaning of HASHX. -/
def execHashx (ilen : Byte) (s : State) : Host.Outcome State Fault Refusal := runOn s (hashxCommand ilen)

/-- The meaning of NOP (R120): no statement. -/
def execNop (s : State) : Host.Outcome State Fault Refusal := runOn s fun v => v

/-- The meaning of CLRERR (R121). -/
def execClrerr (s : State) : Host.Outcome State Fault Refusal := runOn s fun v => v.onLane Lane.clearError

end Sys2Proof.Machine
end

