-- ==== Sys2Proof/Machine/Dispatch.lean ====
section
/-!
DEFINITION. What each command does: one arm per constructor of `Instr`, each one call of the command's meaning.
-/

namespace Sys2Proof.Machine

def exec (i : Instr) (s : State) : Host.Outcome State Fault Refusal :=
  match i with
  | .nop => Sys2Proof.Machine.execNop s
  | .mat slen => Sys2Proof.Machine.execMat slen s
  | .enc ilen => Sys2Proof.Machine.execEnc ilen s
  | .dec => Sys2Proof.Machine.execDec s
  | .srst => Sys2Proof.Machine.execSrst s
  | .lfwd arg => Sys2Proof.Machine.execLfwd arg s
  | .lookup slen => Sys2Proof.Machine.execLookup slen s
  | .hash slen ilen => Sys2Proof.Machine.execHash slen ilen s
  | .hashx ilen => Sys2Proof.Machine.execHashx ilen s
  | .clrerr => Sys2Proof.Machine.execClrerr s

end Sys2Proof.Machine
end

