-- ==== Sys2Proof/Machine/Sequencer.lean ====
section
/-!
DEFINITION. A lane's sequencer: what a lane does with a command word (30_encoding.md R53), gated by a latched error
(60_exceptions.md R134).
-/

namespace Sys2Proof.Machine

/-- The lane takes IllegalCommand (R53 steps 2 to 4, R56): "an illegal word changes no state other than `ERR` and
`DVALID`". -/
def illegalCommand (s : State) : Host.Outcome State Fault Refusal := runOn s fun v => v.raise .illegalCommand

/-- Steps 2 to 5 of R53 on the issuing lane: the word's command, or IllegalCommand. -/
def runWord (w : Word) (s : State) : Host.Outcome State Fault Refusal :=
  match decode w with
  | .ok i => exec i s
  | .error _ => illegalCommand s

/-- Lane `k` receives the word `w` (R53, R38). With a latched error every word but the exact CLRERR word is dropped:
"the dropped word changes no state, raises nothing and is not remembered" (R134). -/
def issue (k : Nat) (w : Word) (s : State) : Host.Outcome State Fault Refusal :=
  match s.lanes[k]? with
  | none => .fault .noSuchLane
  | some l =>
    if l.err = .none then runWord w { s with cur := k }
    else if w = clrErrWord then exec .clrerr { s with cur := k }
    else .next s

end Sys2Proof.Machine
end

