-- ==== Sys2Proof/Machine/HostAccess.lean ====
section
/-!
DEFINITION. The host's moves (20_memory.md R40): the register window (R31), the accesses it takes and refuses (R33, R37),
reads and writes (R34 to R36), issuing a command (R38), and the reset event (70_reset_and_hazards.md R150).
-/

namespace Sys2Proof.Machine

/-- `LB(k) = BASE + 0x100 * k`, the address of lane `k`'s window (R31). -/
def laneBase (s : State) (k : Nat) : Nat := s.base + Config.windowBytes * k

/-- The lane whose window holds the address, and the offset in it; none when the address does "not belong to the block"
(R31). -/
def locate (s : State) (addr : Nat) : Option (Nat × Nat) :=
  if s.base ≤ addr ∧ addr < laneBase s s.lanes.length then
    some ((addr - s.base) / Config.windowBytes, (addr - s.base) % Config.windowBytes)
  else none

/-- The rows of the window's table (R31). -/
inductive WindowRow where
  | cmd
  | status
  | seed
  | input
  | digest
  | reserved
deriving DecidableEq, Repr

/-- The row that holds the offset (R31). -/
def rowOf (off : Nat) : WindowRow :=
  if off < 0x04 then .cmd
  else if off < 0x08 then .status
  else if off < 0x20 then .reserved
  else if off < 0x40 then .seed
  else if off < 0x60 then .input
  else if off < 0x80 then .digest
  else .reserved

/-- The first offset beyond the row that holds the offset (R31). -/
def rowStop (off : Nat) : Nat :=
  if off < 0x04 then 0x04
  else if off < 0x08 then 0x08
  else if off < 0x20 then 0x20
  else if off < 0x40 then 0x40
  else if off < 0x60 then 0x60
  else if off < 0x80 then 0x80
  else 0x100

/-- The widths a row takes: 1, 2 or 4 bytes, and only 4 for `CMD` and `STATUS` (R33). -/
def widthOk (row : WindowRow) (n : Nat) : Bool :=
  match row with
  | .cmd => n == 4
  | .status => n == 4
  | .seed => n == 1 || n == 2 || n == 4
  | .input => n == 1 || n == 2 || n == 4
  | .digest => n == 1 || n == 2 || n == 4
  | .reserved => n == 1 || n == 2 || n == 4

/-- The row an access reaches: naturally aligned, of a width the row takes, and wholly inside the row; none when the
access is refused (R33, R37). -/
def target (addr off n : Nat) : Option WindowRow :=
  if widthOk (rowOf off) n ∧ addr % n = 0 ∧ off + n ≤ rowStop off then some (rowOf off) else none

/-- The value an accepted read returns (R36): `CMD` and the reserved ranges read 0. -/
def readRow (mvalid : Bool) (l : Lane) (row : WindowRow) (off n : Nat) : Word :=
  match row with
  | .cmd => 0#32
  | .status => statusWord mvalid l
  | .seed => readBytes l.seed (off - 0x20) n
  | .input => readBytes l.input (off - 0x40) n
  | .digest => readBytes l.digest (off - 0x60) n
  | .reserved => 0#32

/-- The lane after an accepted write that is no command (R35): `SEED` and `INPUT` take the bytes, the rest ignore
them. -/
def writeRow (l : Lane) (row : WindowRow) (off n : Nat) (v : Word) : Lane :=
  match row with
  | .seed => { l with seed := writeBytes l.seed (off - 0x20) n v }
  | .input => { l with input := writeBytes l.input (off - 0x40) n v }
  | .cmd => l
  | .status => l
  | .digest => l
  | .reserved => l

/-- The state with the host's answer set (R40). -/
def State.answer (s : State) (r : Reply) : State := { s with reply := r }

/-- `MemRead(addr, n)`: no read changes the block (R36). -/
def hostRead (addr n : Nat) (s : State) : Host.Outcome State Fault Refusal :=
  match locate s addr with
  | none => .fault .outsideBlock
  | some (k, off) =>
    match s.lanes[k]? with
    | none => .fault .outsideBlock
    | some l =>
      match target addr off n with
      | none => .next (s.answer .refused)
      | some row => .next (s.answer (.data (readRow s.valid l row off n)))

/-- `MemWrite(addr, n, v)`: a command when it reaches `CMD` (R38), a register write otherwise (R35). -/
def hostWrite (addr n : Nat) (v : Word) (s : State) : Host.Outcome State Fault Refusal :=
  match locate s addr with
  | none => .fault .outsideBlock
  | some (k, off) =>
    match s.lanes[k]? with
    | none => .fault .outsideBlock
    | some l =>
      match target addr off n with
      | none => .next (s.answer .refused)
      | some .cmd => issue k v (s.answer .nothing)
      | some row => .next { s.answer .nothing with lanes := s.lanes.set k (writeRow l row off n v) }

/-- The reset event (R150): the cache is empty and every lane has its reset values. The parameters stay, and so do the
host's later moves (log 13). -/
def resetBlock (s : State) : State :=
  { s with cache := none, lanes := s.lanes.map fun _ => Lane.reset, reply := .nothing }

/-- One move of the host (R40). -/
def hostMove (m : HostMove) (s : State) : Host.Outcome State Fault Refusal :=
  match m with
  | .read addr n => hostRead addr n s
  | .write addr n v => hostWrite addr n v s
  | .reset => .next (resetBlock s)

/-- The next pending input is taken: its `GRANT` bit is the one the environment now presents. -/
def State.take (s : State) (inp : HostInput) (rest : List HostInput) : State :=
  { s with pending := rest, grant := inp.grant }

/-- Takes the host's next move; with none pending the block is idle and "every register keeps its value" (R142; log
9). -/
def nextMove (s : State) : Host.Outcome State Fault Refusal :=
  match s.pending with
  | [] => .next s
  | inp :: rest => hostMove inp.move (s.take inp rest)

/-- The host input that writes the command word `w` to lane `k`'s `CMD` (R38). -/
def commandInput (s : State) (k : Nat) (w : Word) (grant : Bool) : HostInput :=
  { move := .write (laneBase s k) 4 w, grant := grant }

end Sys2Proof.Machine
end

