-- ==== Sys2Proof/Machine/Step.lean ====
section
/-!
DEFINITION. One step of the machine: the host's next move takes effect, one register access, one whole command or a
reset (00_scope.md section 4; 20_memory.md R44, R46).
-/

namespace Sys2Proof.Machine

/-- One step. -/
def step (s : State) : Host.Outcome State Fault Refusal := nextMove s

/-- `s` with the word `w` (its low `nbits` bits) as the host's next move, a write to lane 0's `CMD`. The block fetches
nothing (R12, R48): this stands for the host's issuing the command (R38; log 1). The `GRANT` bit is the one presented
before. -/
def State.withFetchWord (s : State) (nbits w : Nat) : State :=
  { s with pending := commandInput s 0 (BitVec.ofNat 32 (w % 2 ^ nbits)) s.grant :: s.pending }

end Sys2Proof.Machine
end

