-- ==== Sys2Proof/Machine/Assembler.lean ====
section
/-!
DEFINITION. Host programs for one lane as the spec writes them: the lines of 30_encoding.md R58, and the
pseudo-instructions of R59, as lists of host moves.
-/

namespace Sys2Proof.Machine

/-- A line of a host program (R58). `.expect` is a check on the state, not a move, and has no constructor. -/
inductive Line where
  /-- A mnemonic line: its encoding is written to `CMD`. -/
  | command (i : Instr)
  /-- `.word`: a raw word is written to `CMD`. -/
  | word (w : Word)
  /-- `.seed`: the host writes `SEED[0..31]`. -/
  | seed (x : Bytes32)
  /-- `.input`: the host writes `INPUT[0..31]`. -/
  | input (x : Bytes32)
deriving DecidableEq, Repr

/-- The host writes that store 32 bytes from address `addr` on, each as R34 and R35 say. R58 does not say with which
accesses `.seed` and `.input` store them; eight 4-byte writes in ascending order are a DESIGN CHOICE (log 16). -/
def bytesMoves (addr : Nat) (x : Bytes32) : List HostMove :=
  (List.range 8).map fun m => .write (addr + 4 * m) 4 (readBytes x (4 * m) 4)

/-- The host moves of a line for the lane whose window is at `lb` (R31, R58). -/
def lineMoves (lb : Nat) : Line → List HostMove
  | .command i => [.write lb 4 (encode i)]
  | .word w => [.write lb 4 w]
  | .seed x => bytesMoves (lb + 0x20) x
  | .input x => bytesMoves (lb + 0x40) x

/-- `FWDALL`: `LFWD 0` to `LFWD 65`, in this order (R59). -/
def fwdAll : List Instr := (List.range Config.layers).map fun k => .lfwd (BitVec.ofNat 8 k)

/-- `HASHXP`: `SRST`, `ENC 32`, `FWDALL`, `DEC` (R59). -/
def hashxPrimitives : List Instr := [.srst, .enc Config.operandLength] ++ fwdAll ++ [.dec]

/-- `HASHP`: `LOOKUP 32`, then the primitive form of HASHX (R59). -/
def hashPrimitives : List Instr := .lookup Config.operandLength :: hashxPrimitives

/-- The inputs that issue the commands `is` on lane `k`, one after another, with `GRANT = grant` throughout. -/
def commandInputs (s : State) (k : Nat) (grant : Bool) (is : List Instr) : List HostInput :=
  is.map fun i => commandInput s k (encode i) grant

end Sys2Proof.Machine
end

