-- ==== Sys2Proof/Machine/Reference.lean ====
section
/-!
DEFINITION. What the block computes, written as the document's function and not as the machine's registers: the digest
of an input under a model (00_scope.md R1, 41_bitcodec.md R86, 42_forward_pipeline.md R94). The machine's ping-pong buffers
are to be shown to compute it; no meaning calls it. Also the counted form of a row (R101).
-/

namespace Sys2Proof.Machine

/-- The state after the expansion layer and `n` hidden rounds (R94): "`state = layer_forward(HiddenMatrix[r], 1024,
1024, state)`". -/
def hiddenState (w : Weights) (x : Bytes32) : Nat → Bits 1024
  | 0 => layerForward 1024 (expansionMatrix w) (encodeBits x)
  | r + 1 => layerForward 1024 (hiddenMatrix w r) (hiddenState w x r)

/-- The final 256-bit vector (R94). -/
def finalBits (w : Weights) (x : Bytes32) : Bits 256 :=
  layerForward 256 (compressionMatrix w) (hiddenState w x Config.hiddenRounds)

/-- TensHash of the input `x` under the model `w`: encode, expansion, 64 hidden rounds, compression, decode (R86, R94,
R98). -/
def tensHash (w : Weights) (x : Bytes32) : Bytes32 := decodeBits (finalBits w x)

/-- The number of `i < n` for which `p` holds. -/
def countTo : Nat → (Nat → Bool) → Nat
  | 0, _ => 0
  | n + 1, p => countTo n p + (p n).toNat

/-- The counted form of a row's dot product (R101): `(2*ones(P) - |P|) - (2*ones(N) - |N|)`, with `P` and `N` the columns
of weight +1 and -1 and `ones(A)` how many columns of `A` have a 1 bit. -/
def countedDot {inDim : Nat} (m : Matrix) (v : Bits inDim) (j : Nat) : Int :=
  (2 * (countTo inDim fun i => m j i == .pos && bitAt v i) - (countTo inDim fun i => m j i == .pos)) -
    (2 * (countTo inDim fun i => m j i == .neg && bitAt v i) - (countTo inDim fun i => m j i == .neg))

/-- The number of ones of a vector (R8). -/
def popcount {n : Nat} (v : Bits n) : Nat := countTo n (bitAt v)

end Sys2Proof.Machine
end

