-- ==== Sys2Proof/Safety.lean ====
section
/-!
DEFINITION. What counts as a well-formed state and a safe run: the parameters are legal (00_scope.md R6), the lane that
runs a command exists, a lane with a latched error offers no digest (60_exceptions.md R132, R134), and the host addresses
only the block (93_implementation_defined.md U8).
-/

namespace Sys2Proof.Machine

/-- A latched error comes with `DVALID = 0`: `Fail` clears it (R132) and the gated lane runs nothing that would set it
(R134). -/
abbrev Lane.Wf (l : Lane) : Prop := l.err ≠ .none → l.dvalid = false

/-- The invariant of the block: `BASE` is a multiple of 256, there is at least one lane (R6), the issuing lane is one of
them, and every lane's flags agree. -/
abbrev State.Inv (s : State) : Prop :=
  s.base % Config.windowBytes = 0 ∧ s.cur < s.lanes.length ∧ ∀ l ∈ s.lanes, l.Wf

/-- The address lies in some lane's window (R31). -/
abbrev InBlock (s : State) (addr : Nat) : Prop := s.base ≤ addr ∧ addr < laneBase s s.lanes.length

/-- A move the host has: one whose address, if it has one, is the block's (R40, U8). -/
def MoveInBlock (s : State) : HostMove → Prop
  | .read addr _ => InBlock s addr
  | .write addr _ _ => InBlock s addr
  | .reset => True

/-- Every pending move is one the host has. -/
abbrev PendingInBlock (s : State) : Prop := ∀ inp ∈ s.pending, MoveInBlock s inp.move

/-- `n` steps from `s` end in a next state: no step stopped. -/
def SafeRun (n : Nat) (s : State) : Prop := ∃ t, Sys2Proof.core.run n s = .next t

end Sys2Proof.Machine
end

