-- ==== Sys2Proof/Certificates/Slice0/Obligations.lean ====
section
/-!
DEFINITION. The statements for the provers. Each docstring says which rules or sections of spec/ the statement rests on;
where a clause is the model's own choice it names the log entry.
-/

namespace Sys2Proof.Spec

open Sys2Proof.Machine

/-- The host's next move writes the word `w` to lane `k`'s `CMD`, the environment presenting `g` (R31, R38). -/
def CommandPending (s : State) (k : Nat) (w : Word) (g : Bool) (rest : List HostInput) : Prop :=
  s.pending = { move := .write (s.base + 256 * k) 4 w, grant := g } :: rest

/-- The state once the host's next move has been taken and answered with nothing; the block's own state is as before. -/
def taken (s : State) (g : Bool) (rest : List HostInput) : State :=
  { s with pending := rest, grant := g, reply := .nothing }

/-- The state with the issuing lane replaced and everything else as before. -/
def withLane (s : State) (l : Lane) : State := { s with lanes := s.lanes.set s.cur l }

/-- The illegal words, as R56 lists them, by the numbers of their four fields (R50): a reserved opcode, a nonzero field
the format does not use (R51), LFWD with `arg` 66 to 255. -/
def IllegalWord (w : Word) : Prop :=
  10 ≤ w.toNat / 2 ^ 24 ∨
  (w.toNat / 2 ^ 24 ∈ [0, 2, 3, 4, 5, 8, 9] ∧ w.toNat / 2 ^ 16 % 256 ≠ 0) ∨
  (w.toNat / 2 ^ 24 ∈ [0, 1, 3, 4, 5, 6, 9] ∧ w.toNat / 2 ^ 8 % 256 ≠ 0) ∨
  (w.toNat / 2 ^ 24 ∈ [0, 1, 2, 3, 4, 6, 7, 8, 9] ∧ w.toNat % 256 ≠ 0) ∨
  (w.toNat / 2 ^ 24 = 5 ∧ 66 ≤ w.toNat % 256)

/-- An access the block refuses, at offset `off` of a window (R33, R37): a width other than 1, 2, 4, a misaligned
address, or a width other than 4 at `CMD` or `STATUS`. -/
def RefusedAccess (addr off n : Nat) : Prop :=
  ¬ (n = 1 ∨ n = 2 ∨ n = 4) ∨ addr % n ≠ 0 ∨ (off < 8 ∧ n ≠ 4)

/-- The signed unit value of a bit, `2*b - 1` (R90). -/
def unitValue (b : Bool) : Int := 2 * (b.toNat : Int) - 1

/-- An entry of one of the 66 matrices, by row `j` and column `i` (R69). -/
inductive Entry where
  | e (j i : Nat)
  | hd (r j i : Nat)
  | c (j i : Nat)

/-- The entry lies inside its matrix (R68, R69). -/
def Entry.Legal : Entry → Prop
  | .e j i => j < 1024 ∧ i < 256
  | .hd r j i => r < 64 ∧ j < 1024 ∧ i < 1024
  | .c j i => j < 256 ∧ i < 1024

/-- The weight index of an entry (R68, R69). -/
def Entry.index : Entry → Nat
  | .e j i => 256 * j + i
  | .hd r j i => 262144 + 1048576 * r + 1024 * j + i
  | .c j i => 67371008 + 1024 * j + i

/-- The commands that never run `Rebuild` (R54). -/
def NeverRebuilds (i : Instr) : Prop := ∀ slen ilen, i ≠ .mat slen ∧ i ≠ .lookup slen ∧ i ≠ .hash slen ilen

/-- The weights of the test keystream IDENT (95_test_vectors.md section 2). -/
def identWeights : Weights := fun g =>
  if g < 262144 then (if g % 256 = g / 256 % 256 then .pos else .zero)
  else if 67371008 ≤ g then (if (g - 67371008) % 1024 = (g - 67371008) / 1024 then .pos else .zero)
  else .zero

end Sys2Proof.Spec

open Sys2Proof Sys2Proof.Machine Sys2Proof.Spec

/-! ## Command words -/

/-- Decoding the word of a well-formed command gives the command back, with every operand at every value the encoding
admits (30_encoding.md sections 1 to 3). -/
def Obligations.DecodeEncodeRoundTrip : Prop :=
  ∀ i : Instr, i.WellFormed → decode (encode i) = .ok i

/-- A word has at most one meaning: a word that decodes is the encoding of the well-formed command it decodes to
(30_encoding.md sections 1 to 4: "no encodings that execute as another command"). -/
def Obligations.DecodedWordIsItsEncoding : Prop :=
  ∀ (w : Word) (i : Instr), decode w = .ok i → i.WellFormed ∧ encode i = w

/-- R56: exactly the listed words are illegal; on a lane with no latched error an illegal word changes `ERR` and `DVALID`
and nothing else (`cur` is the model's record of the issuing lane, log 10), on a lane with one it is dropped; the
all-zero word is NOP and the all-ones word is illegal. -/
def Obligations.IllegalWordsRaiseIllegalCommand : Prop :=
  (∀ (s : State) (k : Nat) (l : Lane) (w : Word), s.lanes[k]? = some l → IllegalWord w →
    (l.err = .none →
      issue k w s =
        .next { s with cur := k, lanes := s.lanes.set k { l with err := .illegalCommand, dvalid := false } }) ∧
    (l.err ≠ .none → issue k w s = .next s)) ∧
  (∀ w : Word, ¬ IllegalWord w → ∃ i, decode w = .ok i) ∧
  decode 0x00000000#32 = .ok .nop ∧ ¬ IllegalWord 0x00000000#32 ∧ IllegalWord 0xFFFFFFFF#32

/-- Words written out from the spec's encoding (30_encoding.md section 5; 95_test_vectors.md T70) decode to the commands
they stand for, or are rejected by the step of R53 that rejects them. -/
def Obligations.OpcodeTableWordsDecode : Prop :=
  decode 0x00000000#32 = .ok .nop ∧ decode 0x01200000#32 = .ok (.mat 32#8) ∧
  decode 0x011F0000#32 = .ok (.mat 31#8) ∧ decode 0x02002000#32 = .ok (.enc 32#8) ∧
  decode 0x03000000#32 = .ok .dec ∧ decode 0x04000000#32 = .ok .srst ∧ decode 0x05000041#32 = .ok (.lfwd 65#8) ∧
  decode 0x06FF0000#32 = .ok (.lookup 255#8) ∧ decode 0x07202100#32 = .ok (.hash 32#8 33#8) ∧
  decode 0x08001F00#32 = .ok (.hashx 31#8) ∧ decode 0x09000000#32 = .ok .clrerr ∧
  decode 0x05000042#32 = .error .layerOutOfRange ∧ decode 0x02200000#32 = .error .unusedFieldNonzero ∧
  decode 0x0A000000#32 = .error .reservedOpcode

/-- The encodings of the assembler's lines as the arithmetic of 30_encoding.md section 5 gives them. -/
def Obligations.AssemblerEncodings : Prop :=
  (encode .nop).toNat = 0x00000000 ∧ (encode .dec).toNat = 0x03000000 ∧ (encode .srst).toNat = 0x04000000 ∧
  (encode .clrerr).toNat = 0x09000000 ∧
  ∀ a b : Byte,
    (encode (.mat a)).toNat = 0x01000000 + a.toNat * 0x10000 ∧
    (encode (.enc b)).toNat = 0x02000000 + b.toNat * 0x100 ∧
    (encode (.lfwd a)).toNat = 0x05000000 + a.toNat ∧
    (encode (.lookup a)).toNat = 0x06000000 + a.toNat * 0x10000 ∧
    (encode (.hash a b)).toNat = 0x07000000 + a.toNat * 0x10000 + b.toNat * 0x100 ∧
    (encode (.hashx b)).toNat = 0x08000000 + b.toNat * 0x100

/-! ## Steps and the host's moves -/

/-- When the host's next move writes a word to the `CMD` of a lane with no latched error and the word decodes to `i`, the
step is `exec i` on that lane, with the move taken and answered with nothing (20_memory.md section 3; 30_encoding.md
section 2). -/
def Obligations.StepRunsDecodedCommand : Prop :=
  ∀ (s : State) (k : Nat) (l : Lane) (w : Word) (g : Bool) (rest : List HostInput) (i : Instr),
    CommandPending s k w g rest → s.base % 256 = 0 → s.lanes[k]? = some l → l.err = .none → decode w = .ok i →
    step s = exec i { taken s g rest with cur := k }

/-- A latched error gates the lane: every word but the exact CLRERR word is dropped and changes nothing, and CLRERR
clears `ERR` and restores nothing else (60_exceptions.md section 2; 30_encoding.md section 2). -/
def Obligations.LatchedErrorGatesTheLane : Prop :=
  ∀ (s : State) (k : Nat) (l : Lane) (w : Word) (g : Bool) (rest : List HostInput),
    CommandPending s k w g rest → s.base % 256 = 0 → s.lanes[k]? = some l → l.err ≠ .none →
    (w ≠ 0x09000000#32 → step s = .next (taken s g rest)) ∧
    (w = 0x09000000#32 →
      step s = .next { taken s g rest with cur := k, lanes := s.lanes.set k { l with err := .none } })

/-- With no move pending the block is idle: a step changes nothing (60_exceptions.md section 6; log 9). -/
def Obligations.IdleStepChangesNothing : Prop :=
  ∀ s : State, s.pending = [] → step s = .next s

/-- R28: the value of every piece of state after reset. `VALID = 0`; `TAG` and `W` have no value; every lane's registers
and flags are zero; `STATUS` reads 0. -/
def Obligations.ResetValues : Prop :=
  State.reset.valid = false ∧ State.reset.cache = none ∧ (∀ g, State.reset.weight g = none) ∧
  State.reset.lanes ≠ [] ∧
  ∀ l ∈ State.reset.lanes,
    (∀ i < 32, l.seed[i]? = some 0#8 ∧ l.input[i]? = some 0#8 ∧ l.digest[i]? = some 0#8) ∧
    (∀ t < 1024, l.s0[t]? = some false ∧ l.s1[t]? = some false) ∧
    l.sel = false ∧ l.err = .none ∧ l.dvalid = false ∧ l.hit = false ∧
    statusWord State.reset.valid l = 0x00000000#32

/-- The reset event gives every register of the block its reset value, in every lane, and leaves the parameters
(70_reset_and_hazards.md section 1). The host's later moves stay pending (log 13). -/
def Obligations.ResetMoveRestoresResetValues : Prop :=
  ∀ (s : State) (g : Bool) (rest : List HostInput), s.pending = { move := .reset, grant := g } :: rest →
    ∃ t, step s = .next t ∧ t.cache = none ∧ t.base = s.base ∧ t.lanes.length = s.lanes.length ∧
      (∀ l ∈ t.lanes, l ∈ State.reset.lanes) ∧ t.pending = rest

/-- R33, R37: an access inside the block is refused exactly when its width is not 1, 2 or 4, it is misaligned, or it
reaches `CMD` or `STATUS` with a width other than 4; a refused access changes no state of the block, returns no data and
tells the host. -/
def Obligations.RefusedAccesses : Prop :=
  ∀ (s : State) (k off n : Nat) (v : Word) (g : Bool) (rest : List HostInput),
    s.base % 256 = 0 → k < s.lanes.length → off < 256 →
    (s.pending = { move := .read (s.base + 256 * k + off) n, grant := g } :: rest →
      (RefusedAccess (s.base + 256 * k + off) off n → step s = .next { taken s g rest with reply := .refused }) ∧
      (¬ RefusedAccess (s.base + 256 * k + off) off n →
        ∃ d, step s = .next { taken s g rest with reply := .data d })) ∧
    (s.pending = { move := .write (s.base + 256 * k + off) n v, grant := g } :: rest →
      (RefusedAccess (s.base + 256 * k + off) off n → step s = .next { taken s g rest with reply := .refused }) ∧
      (¬ RefusedAccess (s.base + 256 * k + off) off n → ∃ t, step s = .next t ∧ t.reply = .nothing))

/-- An accepted read returns the addressed bytes, the byte at the lowest address in bits 7:0, with zeros above the bytes
read (the model's choice, log 15), and `CMD` and the reserved ranges read 0; nothing of the block changes (20_memory.md sections 2 and 3). -/
def Obligations.ReadsReturnTheAddressedBytes : Prop :=
  ∀ (s : State) (k off n : Nat) (l : Lane) (g : Bool) (rest : List HostInput),
    s.base % 256 = 0 → s.lanes[k]? = some l → off < 256 →
    s.pending = { move := .read (s.base + 256 * k + off) n, grant := g } :: rest →
    ¬ RefusedAccess (s.base + 256 * k + off) off n →
    ∃ d : Word, step s = .next { taken s g rest with reply := .data d } ∧
      (∀ b, 8 * n ≤ b → d.getLsbD b = false) ∧
      (∀ i < n, 0x20 ≤ off → off < 0x40 → l.seed[off - 0x20 + i]? = some (d.extractLsb' (8 * i) 8)) ∧
      (∀ i < n, 0x40 ≤ off → off < 0x60 → l.input[off - 0x40 + i]? = some (d.extractLsb' (8 * i) 8)) ∧
      (∀ i < n, 0x60 ≤ off → off < 0x80 → l.digest[off - 0x60 + i]? = some (d.extractLsb' (8 * i) 8)) ∧
      (off < 4 ∨ (8 ≤ off ∧ off < 0x20) ∨ 0x80 ≤ off → d = 0#32)

/-- R35: a write to `SEED` or `INPUT` stores the written bytes at the addressed indices and changes nothing else; a
write to `STATUS`, `DIGEST` or a reserved range is accepted and ignored; a 4-byte write to `CMD` issues a command. -/
def Obligations.WritesStoreTheAddressedBytes : Prop :=
  ∀ (s : State) (k off n : Nat) (l : Lane) (v : Word) (g : Bool) (rest : List HostInput),
    s.base % 256 = 0 → s.lanes[k]? = some l → off < 256 →
    s.pending = { move := .write (s.base + 256 * k + off) n v, grant := g } :: rest →
    ¬ RefusedAccess (s.base + 256 * k + off) off n →
    (0x20 ≤ off → off < 0x40 → ∃ x : Bytes32,
      step s = .next { taken s g rest with lanes := s.lanes.set k { l with seed := x } } ∧
      ∀ j < 32, x[j]? = if off - 0x20 ≤ j ∧ j < off - 0x20 + n
        then some (v.extractLsb' (8 * (j - (off - 0x20))) 8) else l.seed[j]?) ∧
    (0x40 ≤ off → off < 0x60 → ∃ x : Bytes32,
      step s = .next { taken s g rest with lanes := s.lanes.set k { l with input := x } } ∧
      ∀ j < 32, x[j]? = if off - 0x40 ≤ j ∧ j < off - 0x40 + n
        then some (v.extractLsb' (8 * (j - (off - 0x40))) 8) else l.input[j]?) ∧
    ((4 ≤ off ∧ off < 0x20) ∨ 0x60 ≤ off → step s = .next (taken s g rest)) ∧
    (off < 4 → step s = issue k v (taken s g rest))

/-- A read of `STATUS` returns `ERR` in bits 2:0, by the numbers of 60_exceptions.md section 1 and so at most 5, `DVALID`
in bit 4, `SEL` in bit 5, the shared `VALID` in bit 6, `HIT` in bit 7, and zeros in bits 3 and 31:8; a write to `STATUS` is
ignored (10_state.md section 4). The last clause, that the word is 0 for the reset values, is the spec's own inference from
the fields' reset values. -/
def Obligations.StatusWordFields : Prop :=
  (∀ (s : State) (k : Nat) (l : Lane) (g : Bool) (rest : List HostInput),
    s.base % 256 = 0 → s.lanes[k]? = some l →
    (s.pending = { move := .read (s.base + 256 * k + 4) 4, grant := g } :: rest →
      ∃ d : Word, step s = .next { taken s g rest with reply := .data d } ∧
        (l.err = .none → d.extractLsb' 0 3 = 0#3) ∧ (l.err = .invalidSeedLength → d.extractLsb' 0 3 = 1#3) ∧
        (l.err = .invalidInputLength → d.extractLsb' 0 3 = 2#3) ∧
        (l.err = .allocationFailure → d.extractLsb' 0 3 = 3#3) ∧ (l.err = .noModel → d.extractLsb' 0 3 = 4#3) ∧
        (l.err = .illegalCommand → d.extractLsb' 0 3 = 5#3) ∧ d.extractLsb' 0 3 ≤ 5#3 ∧
        d.getLsbD 3 = false ∧ d.getLsbD 4 = l.dvalid ∧ d.getLsbD 5 = l.sel ∧ d.getLsbD 6 = s.valid ∧
        d.getLsbD 7 = l.hit ∧ d.extractLsb' 8 24 = 0#24) ∧
    ∀ v : Word, s.pending = { move := .write (s.base + 256 * k + 4) 4 v, grant := g } :: rest →
      step s = .next (taken s g rest)) ∧
  statusWord false Lane.reset = 0x00000000#32

/-- An access at an address in no lane's window stops the model by name: it is no move of the model
(93_implementation_defined.md section 1, U8; log 7). -/
def Obligations.AccessOutsideTheBlockStops : Prop :=
  ∀ (s : State) (addr n : Nat) (v : Word) (g : Bool) (rest : List HostInput),
    addr < s.base ∨ s.base + 256 * s.lanes.length ≤ addr →
    (s.pending = { move := .read addr n, grant := g } :: rest → step s = .fault .outsideBlock) ∧
    (s.pending = { move := .write addr n v, grant := g } :: rest → step s = .fault .outsideBlock)

/-! ## What each command does -/

/-- R120: NOP does nothing, as the word 0x00000000 and as a command, with or without a latched error; with `op = 0` and
anything else in the word it is illegal. -/
def Obligations.NopDoesNothing : Prop :=
  decode 0x00000000#32 = .ok .nop ∧
  (∀ s : State, s.cur < s.lanes.length → exec .nop s = .next s) ∧
  (∀ (s : State) (k : Nat) (g : Bool) (rest : List HostInput), CommandPending s k 0x00000000#32 g rest →
    s.base % 256 = 0 → k < s.lanes.length → ∃ t, step s = .next t ∧ t.lanes = s.lanes ∧ t.cache = s.cache) ∧
  (∀ (s : State) (k : Nat) (l : Lane) (w : Word), s.lanes[k]? = some l → l.err = .none → w.toNat / 2 ^ 24 = 0 →
    w ≠ 0x00000000#32 →
    issue k w s = .next { s with cur := k, lanes := s.lanes.set k { l with err := .illegalCommand, dvalid := false } })

/-- MAT with the length 32 and the grant: the cache entry holds the model of `SEED`, whatever it held; the lane's scratch
buffers and `SEL` are cleared; nothing else changes (40_seed_materializer.md sections 3 and 4). -/
def Obligations.MatRebuildsUnconditionally : Prop :=
  ∀ (s : State) (l : Lane), s.lanes[s.cur]? = some l → s.grant = true →
    exec (.mat 32#8) s =
      .next { withLane s { l with s0 := zeroBits, s1 := zeroBits, sel := false } with cache := some l.seed }

/-- After a successful MAT `VALID = 1` and every weight is the ternary value of the keystream byte of the lane's seed,
whole and as it stands (10_state.md section 5; 40_seed_materializer.md sections 2 to 4). Holds for every `KS`. -/
def Obligations.MatInstallsTheModelOfTheSeed : Prop :=
  ∀ (s : State) (l : Lane), s.lanes[s.cur]? = some l → s.grant = true →
    ∃ t, exec (.mat 32#8) s = .next t ∧ t.valid = true ∧
      ∀ g < 67633152, t.weight g = some (tern (Config.ks l.seed g))

/-- A refused grant at a rebuild, in MAT, and in LOOKUP or HASH on a miss: the cache is empty afterwards even if it held a
model, AllocationFailure is latched, `DVALID` is cleared, `HIT` is cleared by LOOKUP and HASH only, and nothing else
changes (40_seed_materializer.md section 3; 60_exceptions.md section 2). -/
def Obligations.RefusedGrantEmptiesTheCache : Prop :=
  ∀ (s : State) (l : Lane), s.lanes[s.cur]? = some l → s.grant = false →
    exec (.mat 32#8) s =
      .next { withLane s { l with err := .allocationFailure, dvalid := false } with cache := none } ∧
    (s.cache ≠ some l.seed → ∀ i ∈ [Instr.lookup 32#8, Instr.hash 32#8 32#8],
      exec i s =
        .next { withLane s { l with err := .allocationFailure, dvalid := false, hit := false } with cache := none })

/-- A declared seed length other than 32 raises InvalidSeedLength in MAT, LOOKUP and HASH (there before the input length
is looked at); only `ERR` and `DVALID` change (30_encoding.md section 3; 60_exceptions.md sections 1 and 2). -/
def Obligations.WrongSeedLengthRaisesInvalidSeedLength : Prop :=
  ∀ (s : State) (l : Lane) (slen ilen : Byte), s.lanes[s.cur]? = some l → slen ≠ 32#8 →
    ∀ i ∈ [Instr.mat slen, Instr.lookup slen, Instr.hash slen ilen],
      exec i s = .next (withLane s { l with err := .invalidSeedLength, dvalid := false })

/-- A declared input length other than 32 raises InvalidInputLength in ENC, HASHX (with or without a model) and HASH
(before the cache is touched); only `ERR` and `DVALID` change (30_encoding.md section 3; 60_exceptions.md sections 1 and
2; 90_conflicts.md C8). -/
def Obligations.WrongInputLengthRaisesInvalidInputLength : Prop :=
  ∀ (s : State) (l : Lane) (ilen : Byte), s.lanes[s.cur]? = some l → ilen ≠ 32#8 →
    ∀ i ∈ [Instr.enc ilen, Instr.hashx ilen, Instr.hash 32#8 ilen],
      exec i s = .next (withLane s { l with err := .invalidInputLength, dvalid := false })

/-- ENC: bit `8k + i` of the current buffer becomes bit `7 - i` of `INPUT[31 - k]`, bits 256 to 1023 become 0, and
nothing else changes: not the other buffer, not `SEL`, no flag (41_bitcodec.md section 1, R84). -/
def Obligations.EncWritesTheCodeOfTheInput : Prop :=
  ∀ (s : State) (l : Lane), s.lanes[s.cur]? = some l →
    ∃ b : Bits 1024,
      exec (.enc 32#8) s = .next (withLane s (if l.sel then { l with s1 := b } else { l with s0 := b })) ∧
      (∀ k < 32, ∀ i < 8, ∀ x, l.input[31 - k]? = some x → b[8 * k + i]? = some (x.getLsbD (7 - i))) ∧
      ∀ t < 1024, 256 ≤ t → b[t]? = some false

/-- DEC: `DIGEST[31 - k]` becomes the sum over `i` of bit `8k + i` of the current buffer times `2^(7 - i)`, `DVALID`
becomes 1, and nothing else changes (41_bitcodec.md section 1, R85). -/
def Obligations.DecWritesTheDigest : Prop :=
  ∀ (s : State) (l : Lane), s.lanes[s.cur]? = some l →
    ∃ d : Bytes32, exec .dec s = .next (withLane s { l with digest := d, dvalid := true }) ∧
      ∀ k < 32, (d[31 - k]?).map BitVec.toNat =
        some (∑ i ∈ Finset.range 8, (bitAt (if l.sel then l.s1 else l.s0) (8 * k + i)).toNat * 2 ^ (7 - i))

/-- R95: SRST, the word 0x04000000, clears both scratch buffers and `SEL` and changes nothing else, so `STATUS[5]` reads
0; with `op = 4` and anything else in the word it is illegal. -/
def Obligations.SrstClearsTheScratchBuffers : Prop :=
  decode 0x04000000#32 = .ok .srst ∧
  (∀ (s : State) (l : Lane), s.lanes[s.cur]? = some l →
    exec .srst s = .next (withLane s { l with s0 := zeroBits, s1 := zeroBits, sel := false })) ∧
  (∀ t, bitAt zeroBits t = false) ∧
  (∀ (m : Bool) (l : Lane), (statusWord m { l with s0 := zeroBits, s1 := zeroBits, sel := false }).getLsbD 5 = false) ∧
  (∀ (s : State) (k : Nat) (l : Lane) (w : Word), s.lanes[k]? = some l → l.err = .none → w.toNat / 2 ^ 24 = 4 →
    w ≠ 0x04000000#32 →
    issue k w s = .next { s with cur := k, lanes := s.lanes.set k { l with err := .illegalCommand, dvalid := false } })

/-- LFWD runs one layer from the current buffer into the other and swaps (R97): the buffer read keeps its contents, all
1024 bits of the other are written, `SEL` flips, nothing else changes. Output bit `j` is 1 exactly when the sum of its
row is greater than 0: row `j` of E over bits 0 to 255 for layer 0; row `j` of Hd[r] plus the residual for layer `r + 1`;
row `j` of C for layer 65, where bits 256 to 1023 are 0. -/
def Obligations.LfwdRunsOneLayer : Prop :=
  ∀ (s : State) (l : Lane) (tag : Bytes32) (arg : Byte),
    s.lanes[s.cur]? = some l → s.cache = some tag → arg ≤ 65#8 →
    ∃ o : Bits 1024,
      exec (.lfwd arg) s =
        .next (withLane s (if l.sel then { l with s0 := o, sel := false } else { l with s1 := o, sel := true })) ∧
      ∀ j < 1024,
        (arg = 0#8 → (bitAt o j = true ↔ 0 < ∑ i ∈ Finset.range 256,
          ternaryValue (modelOf tag (256 * j + i)) * unitValue (bitAt l.current i))) ∧
        (∀ r < 64, arg.toNat = r + 1 → (bitAt o j = true ↔ 0 < (∑ i ∈ Finset.range 1024,
          ternaryValue (modelOf tag (262144 + 1048576 * r + 1024 * j + i)) * unitValue (bitAt l.current i)) +
            unitValue (bitAt l.current j))) ∧
        (arg = 65#8 → (bitAt o j = true ↔ j < 256 ∧ 0 < ∑ i ∈ Finset.range 1024,
          ternaryValue (modelOf tag (67371008 + 1024 * j + i)) * unitValue (bitAt l.current i)))

/-- With `VALID = 0`, LFWD with a legal layer and HASHX with the length 32 raise NoModel and change nothing but `ERR` and
`DVALID` (42_forward_pipeline.md section 2; 44_hash_facade.md R117; 60_exceptions.md section 1). -/
def Obligations.LayersWithoutAModelRaiseNoModel : Prop :=
  ∀ (s : State) (l : Lane) (arg : Byte), s.lanes[s.cur]? = some l → s.cache = none → arg ≤ 65#8 →
    ∀ i ∈ [Instr.lfwd arg, Instr.hashx 32#8],
      exec i s = .next (withLane s { l with err := .noModel, dvalid := false })

/-- LFWD with a layer index over 65, which has no encoding, raises IllegalCommand, with or without a model
(30_encoding.md sections 2 and 4; 60_exceptions.md section 2; log 11). -/
def Obligations.LfwdBeyondTheLastLayerIsIllegal : Prop :=
  ∀ (s : State) (l : Lane) (arg : Byte), s.lanes[s.cur]? = some l → 65#8 < arg →
    exec (.lfwd arg) s = .next (withLane s { l with err := .illegalCommand, dvalid := false })

/-- R105, in the command LOOKUP 32: when `VALID = 1` and `TAG` equals the seed it is a hit and only `HIT` changes,
whatever the grant; otherwise it is a miss, `HIT` becomes 0, and with the grant the model of the seed replaces the cache
entry and the lane's scratch is cleared, without it the cache is empty and AllocationFailure is latched. -/
def Obligations.LookupHitsOrRebuilds : Prop :=
  ∀ (s : State) (l : Lane), s.lanes[s.cur]? = some l →
    (s.cache = some l.seed → exec (.lookup 32#8) s = .next (withLane s { l with hit := true })) ∧
    (s.cache ≠ some l.seed → s.grant = true →
      exec (.lookup 32#8) s =
        .next { withLane s { l with hit := false, s0 := zeroBits, s1 := zeroBits, sel := false }
          with cache := some l.seed }) ∧
    (s.cache ≠ some l.seed → s.grant = false →
      exec (.lookup 32#8) s =
        .next { withLane s { l with hit := false, err := .allocationFailure, dvalid := false } with cache := none })

/-- HASH with both lengths 32, on a hit or with the grant: `DIGEST` is TensHash of `INPUT` under the model of `SEED`,
`DVALID = 1`, `HIT` says whether it hit, the cache holds the model of `SEED`, and the scratch ends as
42_forward_pipeline.md section 2 (R98) says: `SEL = 0`, `S0` the final vector then zeros, `S1` the last hidden state
(44_hash_facade.md R116). Holds for every `KS`. -/
def Obligations.HashComputesTensHash : Prop :=
  ∀ (s : State) (l : Lane), s.lanes[s.cur]? = some l → s.cache = some l.seed ∨ s.grant = true →
    exec (.hash 32#8 32#8) s =
      .next { withLane s
          { l with
            digest := tensHash (materialize Config.ks l.seed) l.input
            dvalid := true
            hit := decide (s.cache = some l.seed)
            sel := false
            s0 := padBits (finalBits (materialize Config.ks l.seed) l.input)
            s1 := hiddenState (materialize Config.ks l.seed) l.input 64 }
        with cache := some l.seed }

/-- HASHX with the length 32 and a model in the store: `DIGEST` is TensHash of `INPUT` under the model in the store,
whatever the lane's `SEED`; `HIT` and the cache are unchanged (44_hash_facade.md R117; 70_reset_and_hazards.md section
3). Holds for every `KS`. -/
def Obligations.HashxComputesTensHashUnderThePresentModel : Prop :=
  ∀ (s : State) (l : Lane) (tag : Bytes32), s.lanes[s.cur]? = some l → s.cache = some tag →
    exec (.hashx 32#8) s =
      .next (withLane s
        { l with
          digest := tensHash (materialize Config.ks tag) l.input
          dvalid := true
          sel := false
          s0 := padBits (finalBits (materialize Config.ks tag) l.input)
          s1 := hiddenState (materialize Config.ks tag) l.input 64 })

/-- R121: CLRERR, the word 0x09000000, sets `ERR` to 0, so `STATUS[2:0]` reads 0, and changes nothing else; with
`ERR = 0` it changes nothing; with `op = 9` and anything else in the word the word is illegal when `ERR = 0` and dropped
when not. -/
def Obligations.ClrerrClearsTheError : Prop :=
  decode 0x09000000#32 = .ok .clrerr ∧
  (∀ (s : State) (l : Lane), s.lanes[s.cur]? = some l →
    exec .clrerr s = .next (withLane s { l with err := .none }) ∧ (l.err = .none → exec .clrerr s = .next s)) ∧
  (∀ (m : Bool) (l : Lane), (statusWord m { l with err := .none }).extractLsb' 0 3 = 0#3) ∧
  (∀ (s : State) (k : Nat) (l : Lane), s.lanes[k]? = some l → l.err ≠ .none →
    issue k 0x09000000#32 s = .next { s with cur := k, lanes := s.lanes.set k { l with err := .none } }) ∧
  (∀ (s : State) (k : Nat) (l : Lane) (w : Word), s.lanes[k]? = some l → w.toNat / 2 ^ 24 = 9 → w ≠ 0x09000000#32 →
    (l.err = .none → issue k w s =
      .next { s with cur := k, lanes := s.lanes.set k { l with err := .illegalCommand, dvalid := false } }) ∧
    (l.err ≠ .none → issue k w s = .next s))

/-! ## Whole-machine rules -/

/-- Every command word on every lane, in every state, has a successor: no word stops the machine
(93_implementation_defined.md, before section 1; 70_reset_and_hazards.md section 4). -/
def Obligations.EveryCommandWordHasASuccessor : Prop :=
  ∀ (s : State) (k : Nat) (w : Word), k < s.lanes.length → ∃ t, issue k w s = .next t

/-- A command writes nothing but the shared cache entry and its own lane, there never `SEED` or `INPUT`, and no
parameter and no host move (30_encoding.md section 2, R54). -/
def Obligations.CommandsWriteOnlyTheirOwnLane : Prop :=
  ∀ (i : Instr) (s t : State), exec i s = .next t →
    (∀ k, k ≠ s.cur → t.lanes[k]? = s.lanes[k]?) ∧
    (∀ l l', s.lanes[s.cur]? = some l → t.lanes[s.cur]? = some l' → l'.seed = l.seed ∧ l'.input = l.input) ∧
    t.base = s.base ∧ t.pending = s.pending ∧ t.grant = s.grant ∧ t.cur = s.cur ∧ t.reply = s.reply

/-- "A command writes the shared state only inside `Rebuild`": a command that never rebuilds leaves the cache entry; MAT,
LOOKUP and HASH leave it, empty it when the grant is refused, or make it the model of the lane's `SEED` (30_encoding.md
section 2, R54; 43_precompute_cache.md R109). -/
def Obligations.SharedStateIsWrittenOnlyByARebuild : Prop :=
  ∀ (i : Instr) (s t : State) (l : Lane), exec i s = .next t → s.lanes[s.cur]? = some l →
    (NeverRebuilds i → t.cache = s.cache) ∧
    (t.cache = s.cache ∨ (s.grant = false ∧ t.cache = none) ∨ (s.grant = true ∧ t.cache = some l.seed))

/-- R133: whatever word a lane without a latched error receives, if it has an error afterwards, only `ERR` and `DVALID`
have changed, but for code 3, where also the cache is empty and, when the command was not MAT (so LOOKUP or HASH), `HIT` is
0. `DIGEST`, the scratch buffers, `SEL` and every other lane are as before (`cur` is the model's record of the issuing
lane, log 10). -/
def Obligations.ErrorsArePrecise : Prop :=
  ∀ (s t : State) (k : Nat) (w : Word) (l l' : Lane), s.lanes[k]? = some l → l.err = .none → issue k w s = .next t →
    t.lanes[k]? = some l' → l'.err ≠ .none →
    (l'.err ≠ .allocationFailure →
      t = { s with cur := k, lanes := s.lanes.set k { l with err := l'.err, dvalid := false } }) ∧
    (l'.err = .allocationFailure →
      (w = 0x01200000#32 →
        t = { s with
          cur := k
          cache := none
          lanes := s.lanes.set k { l with err := .allocationFailure, dvalid := false } }) ∧
      (w ≠ 0x01200000#32 →
        (w = 0x06200000#32 ∨ w = 0x07202000#32) ∧
        t = { s with
          cur := k
          cache := none
          lanes := s.lanes.set k { l with err := .allocationFailure, dvalid := false, hit := false } }))

/-- `DIGEST` changes only in a DEC, HASH or HASHX that succeeds, which sets `DVALID` and leaves `ERR`; and `DVALID`
becomes 1 only there (10_state.md section 3). -/
def Obligations.DigestChangesOnlyOnSuccess : Prop :=
  ∀ (i : Instr) (s t : State) (l l' : Lane), s.lanes[s.cur]? = some l → exec i s = .next t →
    t.lanes[s.cur]? = some l' → l'.digest ≠ l.digest ∨ (l.dvalid = false ∧ l'.dvalid = true) →
    i ∈ [Instr.dec, Instr.hash 32#8 32#8, Instr.hashx 32#8] ∧ l'.dvalid = true ∧ l'.err = l.err

/-- Errors are never data-dependent: with the grant, the error a command leaves is the same whatever bytes the lane's
`SEED` and `INPUT` hold (60_exceptions.md section 1; 44_hash_facade.md R119). -/
def Obligations.ErrorsAreNeverDataDependent : Prop :=
  ∀ (i : Instr) (s : State) (l : Lane) (x y : Bytes32), s.lanes[s.cur]? = some l → s.grant = true →
    ∃ t t' m m', exec i s = .next t ∧ exec i (withLane s { l with seed := x, input := y }) = .next t' ∧
      t.lanes[s.cur]? = some m ∧ t'.lanes[s.cur]? = some m' ∧ m.err = m'.err

/-- Two successful HASH commands with equal `SEED` and `INPUT` leave equal `DIGEST`s, whatever else differs between the
two states: cache, lane, scratch, flags (44_hash_facade.md R119; 95_test_vectors.md S8). -/
def Obligations.HashDigestDependsOnlyOnSeedAndInput : Prop :=
  ∀ (s s' : State) (l l' : Lane), s.lanes[s.cur]? = some l → s'.lanes[s'.cur]? = some l' → l.seed = l'.seed →
    l.input = l'.input → s.grant = true → s'.grant = true →
    ∃ t t' m m', exec (.hash 32#8 32#8) s = .next t ∧ exec (.hash 32#8 32#8) s' = .next t' ∧
      t.lanes[s.cur]? = some m ∧ t'.lanes[s'.cur]? = some m' ∧ m.digest = m'.digest ∧ m.dvalid = true ∧
      m'.dvalid = true

/-- Cache transparency: HASH leaves the same `DIGEST` as MAT followed by HASHX, whatever the cache held before
(43_precompute_cache.md R110). -/
def Obligations.CacheTransparency : Prop :=
  ∀ (s : State) (l : Lane), s.lanes[s.cur]? = some l → s.grant = true →
    ∃ t u u' m m', exec (.hash 32#8 32#8) s = .next t ∧ exec (.mat 32#8) s = .next u ∧
      exec (.hashx 32#8) u = .next u' ∧ t.lanes[s.cur]? = some m ∧ u'.lanes[s.cur]? = some m' ∧
      m.digest = m'.digest ∧ t.cache = u'.cache

/-- The macro commands equal their primitive forms: run from the same state with no latched error and the grant
throughout, the 70 commands of HASHP leave exactly the state HASH 32, 32 leaves, and with a model in the store the 69 of
HASHXP exactly the state HASHX 32 leaves (44_hash_facade.md R118; 30_encoding.md section 5). -/
def Obligations.MacroCommandsEqualTheirPrimitiveForms : Prop :=
  ∀ (s : State) (k : Nat) (l : Lane) (rest : List HostInput),
    s.base % 256 = 0 → s.lanes[k]? = some l → l.err = .none →
    (Sys2Proof.core.run 70 { s with pending := commandInputs s k true hashPrimitives ++ rest } =
      step { s with pending := commandInputs s k true [.hash 32#8 32#8] ++ rest }) ∧
    (s.cache ≠ none →
      Sys2Proof.core.run 69 { s with pending := commandInputs s k true hashxPrimitives ++ rest } =
        step { s with pending := commandInputs s k true [.hashx 32#8] ++ rest })

/-- Two lanes that HASH under the same new seed, in either order: the one that comes first misses and rebuilds, the
other hits, one model is built, and both digests are those of the seed (43_precompute_cache.md R111; 95_test_vectors.md
S14). -/
def Obligations.ConcurrentRequestsBuildOneModel : Prop :=
  ∀ (s : State) (a b : Nat) (la lb : Lane) (rest : List HostInput),
    s.base % 256 = 0 → a ≠ b → s.lanes[a]? = some la → s.lanes[b]? = some lb → la.err = .none → lb.err = .none →
    la.seed = lb.seed → s.cache ≠ some la.seed →
    ∃ t ma mb,
      Sys2Proof.core.run 2 { s with
        pending := commandInput s a 0x07202000#32 true :: commandInput s b 0x07202000#32 true :: rest } = .next t ∧
      t.cache = some la.seed ∧ t.lanes[a]? = some ma ∧ t.lanes[b]? = some mb ∧ ma.hit = false ∧ mb.hit = true ∧
      ma.digest = tensHash (modelOf la.seed) la.input ∧ mb.digest = tensHash (modelOf la.seed) lb.input ∧
      ma.dvalid = true ∧ mb.dvalid = true

/-- Commands of different lanes that do not rebuild may run in either order: the lanes and the cache come out the same
(20_memory.md section 5, R46). -/
def Obligations.CommandsThatDoNotRebuildCommuteAcrossLanes : Prop :=
  ∀ (s : State) (a b : Nat) (i j : Instr), a ≠ b → a < s.lanes.length → b < s.lanes.length → NeverRebuilds i →
    NeverRebuilds j →
    ∃ t u t' u', exec i { s with cur := a } = .next t ∧ exec j { t with cur := b } = .next u ∧
      exec j { s with cur := b } = .next t' ∧ exec i { t' with cur := a } = .next u' ∧
      u.lanes = u'.lanes ∧ u.cache = u'.cache

/-- Every step keeps the invariant: the base stays a multiple of 256, the issuing lane stays one of the lanes, and a
lane with a latched error never shows a valid digest (00_scope.md section 3; 60_exceptions.md section 2). -/
def Obligations.StepKeepsTheInvariant : Prop :=
  ∀ s t : State, s.Inv → step s = .next t → t.Inv

/-- The invariant holds at reset (10_state.md section 7), also for any legal parameters in place of the defaults. -/
def Obligations.ResetSatisfiesTheInvariant : Prop :=
  State.reset.Inv ∧
  ∀ (m n : Nat), { State.reset with base := 256 * m, lanes := List.replicate (n + 1) Lane.reset }.Inv

/-- No step changes the parameters `BASE` and `NLANES` (00_scope.md section 3: fixed for the block). -/
def Obligations.ParametersNeverChange : Prop :=
  ∀ s t : State, step s = .next t → t.base = s.base ∧ t.lanes.length = s.lanes.length

/-- Nothing stops a host that addresses only the block: from any state that meets the invariant, every number of steps
ends in a next state (93_implementation_defined.md, before section 1; 70_reset_and_hazards.md section 4). -/
def Obligations.InBlockRunsNeverStop : Prop :=
  ∀ (n : Nat) (s : State), s.Inv → PendingInBlock s → SafeRun n s

/-! ## The functions the commands compute -/

/-- The ternary map by the byte's two low bits; the other bits have no effect; and the spec's examples
(40_seed_materializer.md section 1). The clause that the weight is nonzero exactly when bit 1 is set, and then negative
exactly when bit 0 is, is the spec's own inference from the table. -/
def Obligations.TernaryMap : Prop :=
  (∀ b : Byte,
    (b.toNat % 4 = 0 → ternaryValue (tern b) = 0) ∧ (b.toNat % 4 = 1 → ternaryValue (tern b) = 0) ∧
    (b.toNat % 4 = 2 → ternaryValue (tern b) = 1) ∧ (b.toNat % 4 = 3 → ternaryValue (tern b) = -1)) ∧
  (∀ b c : Byte, b.extractLsb' 0 2 = c.extractLsb' 0 2 → tern b = tern c) ∧
  (∀ b : Byte, (ternaryValue (tern b) ≠ 0 ↔ b.getLsbD 1 = true) ∧
    (ternaryValue (tern b) < 0 ↔ b.getLsbD 1 = true ∧ b.getLsbD 0 = true)) ∧
  tern 0x00#8 = .zero ∧ tern 0x01#8 = .zero ∧ tern 0x02#8 = .pos ∧ tern 0x03#8 = .neg ∧ tern 0xFE#8 = .pos ∧
  tern 0xFF#8 = .neg ∧ tern 0xB7#8 = .neg ∧ tern 0x85#8 = .zero

/-- R68, R69: every weight index below NW is the index of exactly one entry of exactly one matrix, every entry's index is
below NW, and the three views of the store read the entry at its index. -/
def Obligations.MatricesTileTheModelStore : Prop :=
  (∀ g < 67633152, ∃ x : Entry, x.Legal ∧ x.index = g ∧ ∀ y : Entry, y.Legal → y.index = g → y = x) ∧
  (∀ x : Entry, x.Legal → x.index < 67633152) ∧
  (∀ (w : Weights) (r j i : Nat), expansionMatrix w j i = w (Entry.index (.e j i)) ∧
    hiddenMatrix w r j i = w (Entry.index (.hd r j i)) ∧ compressionMatrix w j i = w (Entry.index (.c j i))) ∧
  offE = 0 ∧ offH 0 = 262144 ∧ offH 1 = 1310720 ∧ offH 63 = 66322432 ∧ offC = 67371008

/-- R80: `encode` puts bit `7 - i` of byte `31 - k` at index `8k + i`. -/
def Obligations.EncodeReversesBytesAndUnpacksMsbFirst : Prop :=
  ∀ (x : Bytes32) (k i : Nat), k < 32 → i < 8 → ∀ b, x[31 - k]? = some b →
    (encodeBits x)[8 * k + i]? = some (b.getLsbD (7 - i))

/-- R81: `decode` makes byte `31 - k` the sum over `i` of the bit at index `8k + i` times `2^(7 - i)`. -/
def Obligations.DecodePacksMsbFirstAndReversesBytes : Prop :=
  ∀ (v : Bits 256) (k : Nat), k < 32 →
    ((decodeBits v)[31 - k]?).map BitVec.toNat =
      some (∑ i ∈ Finset.range 8, (bitAt v (8 * k + i)).toNat * 2 ^ (7 - i))

/-- The codec loses nothing in either direction (41_bitcodec.md section 1, R82). -/
def Obligations.CodecRoundTrip : Prop :=
  (∀ x : Bytes32, decodeBits (encodeBits x) = x) ∧ ∀ v : Bits 256, encodeBits (decodeBits v) = v

/-- `encode` lists the bits of the little-endian 256-bit integer of the bytes from the most to the least significant
(41_bitcodec.md section 1, R83). -/
def Obligations.EncodeListsTheBitsOfTheInteger : Prop :=
  ∀ (x : Bytes32) (t : Nat), t < 256 →
    bitAt (encodeBits x) t = Nat.testBit (∑ m ∈ Finset.range 32, (byteAt x m).toNat * 256 ^ m) (255 - t)

/-- R90, R91: the layer function of any dimensions: output bit `j` is 1 exactly when the exact dot product of row `j` with
the mapped input, plus the mapped input at `j` when the layer is square, is strictly greater than 0; and each product is
-1, 0 or +1. -/
def Obligations.LayerFunction : Prop :=
  (∀ (inDim outDim : Nat) (m : Matrix) (v : Bits inDim) (j : Nat), j < outDim →
    ((layerForward outDim m v)[j]? = some true ↔
      0 < (∑ i ∈ Finset.range inDim, ternaryValue (m j i) * unitValue (bitAt v i)) +
        if inDim = outDim then unitValue (bitAt v j) else 0)) ∧
  ∀ (x : Ternary) (b : Bool), ternaryValue x * unitValue b ∈ [-1, 0, (1 : Int)]

/-- A row of zero weights gives output 0 in a layer that is not square and the input bit itself in a square one
(42_forward_pipeline.md section 1, R93). -/
def Obligations.ZeroRowsGiveZeroOrTheInputBit : Prop :=
  ∀ (inDim outDim : Nat) (m : Matrix) (v : Bits inDim) (j : Nat), j < outDim → (∀ i < inDim, m j i = .zero) →
    bitAt (layerForward outDim m v) j = if inDim = outDim then bitAt v j else false

/-- The sums are bounded by the number of terms, and the bound of a hidden round, 1025, is reached (42_forward_pipeline.md
section 3, R99; 90_conflicts.md C2). -/
def Obligations.LayerSumsAreBounded : Prop :=
  (∀ (inDim outDim : Nat) (m : Matrix) (v : Bits inDim) (j : Nat),
    |layerSum outDim m v j| ≤ (inDim : Int) + if inDim = outDim then 1 else 0) ∧
  layerSum 1024 (fun _ _ => .pos) (Vector.replicate 1024 true) 0 = 1025

/-- The counted form of a row's dot product equals the plain sum (42_forward_pipeline.md section 3, R101). -/
def Obligations.CountedDotProductEqualsThePlainSum : Prop :=
  ∀ (inDim : Nat) (m : Matrix) (v : Bits inDim) (j : Nat),
    countedDot m v j = ∑ i ∈ Finset.range inDim, ternaryValue (m j i) * unitValue (bitAt v i)

/-- Under a model whose weights are all +1, the digest is all ones when the input has more than 128 ones and all zeros
when not (95_test_vectors.md T31): at exactly 128 ones every expansion sum is 0, and the threshold is strict. -/
def Obligations.AllPlusOneModelDigest : Prop :=
  ∀ x : Bytes32, tensHash (fun _ => .pos) x =
    if 128 < popcount (encodeBits x) then Vector.replicate 32 0xFF#8 else Vector.replicate 32 0x00#8

/-- Under the identity model the digest is the input (95_test_vectors.md T34): the 66 layers read and write the indices
the spec's layout gives, and the residual alone carries the hidden rounds. -/
def Obligations.IdentityModelDigest : Prop :=
  ∀ x : Bytes32, tensHash identWeights x = x
end

