-- ==== Sys2Proof/Laws/Bits.lean ====
section
/-!
SUPPORT. Bit vectors read by index: what each vector operation of the model holds at each index, and the extensionality
that turns an equality of vectors into one of bits.
-/

namespace Sys2Proof.Machine

/-- Inside the vector, `bitAt` is the entry. -/
theorem bitAt_of_lt {n : Nat} (v : Bits n) {t : Nat} (h : t < n) : bitAt v t = v[t] := by
  simp [bitAt, h]

/-- Beyond the vector's end, `bitAt` is 0. -/
theorem bitAt_of_le {n : Nat} (v : Bits n) {t : Nat} (h : n ≤ t) : bitAt v t = false := by
  simp [bitAt, h]

/-- Two bit vectors with the same bits are equal. -/
theorem bits_ext {n : Nat} {u v : Bits n} (h : ∀ t < n, bitAt u t = bitAt v t) : u = v := by
  apply Vector.ext
  intro t ht
  have := h t ht
  rwa [bitAt_of_lt u ht, bitAt_of_lt v ht] at this

/-- A vector given by its bits. -/
theorem bitAt_ofFn {n : Nat} (f : Fin n → Bool) {t : Nat} (h : t < n) :
    bitAt (Vector.ofFn f) t = f ⟨t, h⟩ := by
  rw [bitAt_of_lt _ h]; simp

@[simp] theorem bitAt_zeroBits (t : Nat) : bitAt zeroBits t = false := by
  by_cases h : t < 1024
  · rw [bitAt_of_lt _ h]; simp [zeroBits]
  · exact bitAt_of_le _ (by omega)

/-- Padding keeps the bits and adds zeros. -/
theorem bitAt_padBits {n : Nat} (v : Bits n) (hn : n ≤ 1024) (t : Nat) : bitAt (padBits v) t = bitAt v t := by
  by_cases h : t < 1024
  · exact bitAt_ofFn _ h
  · rw [bitAt_of_le _ (by omega), bitAt_of_le _ (by omega)]

@[simp] theorem bitAt_padBits_256 (v : Bits 256) (t : Nat) : bitAt (padBits v) t = bitAt v t :=
  bitAt_padBits v (by omega) t

/-- Padding a whole buffer changes nothing. -/
@[simp] theorem padBits_1024 (v : Bits 1024) : padBits v = v :=
  bits_ext fun t _ => bitAt_padBits v (by omega) t

/-- The low 256 bits of a buffer. -/
theorem bitAt_lowBits (v : Bits 1024) {t : Nat} (h : t < 256) : bitAt (lowBits v) t = bitAt v t :=
  bitAt_ofFn _ h

/-- Taking the low bits undoes the padding. -/
@[simp] theorem lowBits_padBits (v : Bits 256) : lowBits (padBits v) = v :=
  bits_ext fun t ht => by rw [bitAt_lowBits _ ht, bitAt_padBits_256]

/-- A register byte, by its index. -/
theorem byteAt_of_lt (a : Bytes32) {i : Nat} (h : i < 32) : byteAt a i = a[i] := by
  simp [byteAt, h]

/-- Two 32-byte registers with the same bytes are equal. -/
theorem bytes_ext {a b : Bytes32} (h : ∀ i < 32, byteAt a i = byteAt b i) : a = b := by
  apply Vector.ext
  intro i hi
  have := h i hi
  rwa [byteAt_of_lt a hi, byteAt_of_lt b hi] at this

/-- A register byte, as an optional entry. -/
theorem getElem?_eq_byteAt (a : Bytes32) {i : Nat} (h : i < 32) : a[i]? = some (byteAt a i) := by
  rw [byteAt_of_lt a h]; simp [h]

/-- A bit of a vector, as an optional entry. -/
theorem getElem?_eq_bitAt {n : Nat} (v : Bits n) {t : Nat} (h : t < n) : v[t]? = some (bitAt v t) := by
  rw [bitAt_of_lt v h]; simp [h]

/-- Which bit of which byte `encode` puts at each index (R80). -/
theorem bitAt_encodeBits (x : Bytes32) {t : Nat} (h : t < 256) :
    bitAt (encodeBits x) t = (byteAt x (31 - t / 8)).getLsbD (7 - t % 8) :=
  bitAt_ofFn _ h

/-- Which bits `decode` packs into each byte (R81). -/
theorem byteAt_decodeBits (v : Bits 256) {m : Nat} (h : m < 32) :
    byteAt (decodeBits v) m = packByte fun i => bitAt v (8 * (31 - m) + i) := by
  rw [byteAt_of_lt _ h]; simp [decodeBits]

/-- The number a packed byte is. -/
theorem packByte_toNat (b : Nat → Bool) :
    (packByte b).toNat = ∑ i ∈ Finset.range 8, (b i).toNat * 2 ^ (7 - i) := by
  have hr : List.range 8 = [0, 1, 2, 3, 4, 5, 6, 7] := by decide
  have h := fun i => Bool.toNat_le (b i)
  have h0 := h 0; have h1 := h 1; have h2 := h 2; have h3 := h 3
  have h4 := h 4; have h5 := h 5; have h6 := h 6; have h7 := h 7
  rw [packByte, BitVec.toNat_ofNat, hr]
  simp only [Finset.sum_range_succ, Finset.sum_range_zero, List.map_cons, List.map_nil, List.sum_cons, List.sum_nil]
  norm_num
  omega

/-- The model's sum is the finite sum. -/
theorem sumTo_eq (n : Nat) (f : Nat → Int) : sumTo n f = ∑ i ∈ Finset.range n, f i := by
  induction n with
  | zero => rfl
  | succ n ih => rw [sumTo, ih, Finset.sum_range_succ]

theorem positiveSum_iff (x : Int) : positiveSum x = true ↔ 0 < x := by simp [positiveSum]

/-- Each output bit of a layer is the strict sign of its sum. -/
theorem bitAt_layerForward {n outDim : Nat} (m : Matrix) (v : Bits n) {j : Nat} (h : j < outDim) :
    bitAt (layerForward outDim m v) j = positiveSum (layerSum outDim m v j) :=
  bitAt_ofFn _ h

end Sys2Proof.Machine
end

