-- ==== Sys2Proof/Laws/State.lean ====
section
/-!
SUPPORT. The fields of the state after each named update, one lemma per field and update, so that no later proof
unfolds a record update.
-/

namespace Sys2Proof.Machine

/-! ### Lane.fail -/

@[simp] theorem Lane.fail_seed (l : Lane) (e : ErrCode) : (l.fail e).seed = l.seed := rfl
@[simp] theorem Lane.fail_input (l : Lane) (e : ErrCode) : (l.fail e).input = l.input := rfl
@[simp] theorem Lane.fail_digest (l : Lane) (e : ErrCode) : (l.fail e).digest = l.digest := rfl
@[simp] theorem Lane.fail_s0 (l : Lane) (e : ErrCode) : (l.fail e).s0 = l.s0 := rfl
@[simp] theorem Lane.fail_s1 (l : Lane) (e : ErrCode) : (l.fail e).s1 = l.s1 := rfl
@[simp] theorem Lane.fail_sel (l : Lane) (e : ErrCode) : (l.fail e).sel = l.sel := rfl
@[simp] theorem Lane.fail_err (l : Lane) (e : ErrCode) : (l.fail e).err = e := rfl
@[simp] theorem Lane.fail_dvalid (l : Lane) (e : ErrCode) : (l.fail e).dvalid = false := rfl
@[simp] theorem Lane.fail_hit (l : Lane) (e : ErrCode) : (l.fail e).hit = l.hit := rfl

/-! ### Lane.clearError -/

@[simp] theorem Lane.clearError_seed (l : Lane) : (l.clearError).seed = l.seed := rfl
@[simp] theorem Lane.clearError_input (l : Lane) : (l.clearError).input = l.input := rfl
@[simp] theorem Lane.clearError_digest (l : Lane) : (l.clearError).digest = l.digest := rfl
@[simp] theorem Lane.clearError_s0 (l : Lane) : (l.clearError).s0 = l.s0 := rfl
@[simp] theorem Lane.clearError_s1 (l : Lane) : (l.clearError).s1 = l.s1 := rfl
@[simp] theorem Lane.clearError_sel (l : Lane) : (l.clearError).sel = l.sel := rfl
@[simp] theorem Lane.clearError_err (l : Lane) : (l.clearError).err = .none := rfl
@[simp] theorem Lane.clearError_dvalid (l : Lane) : (l.clearError).dvalid = l.dvalid := rfl
@[simp] theorem Lane.clearError_hit (l : Lane) : (l.clearError).hit = l.hit := rfl

/-! ### Lane.setHit -/

@[simp] theorem Lane.setHit_seed (l : Lane) (b : Bool) : (l.setHit b).seed = l.seed := rfl
@[simp] theorem Lane.setHit_input (l : Lane) (b : Bool) : (l.setHit b).input = l.input := rfl
@[simp] theorem Lane.setHit_digest (l : Lane) (b : Bool) : (l.setHit b).digest = l.digest := rfl
@[simp] theorem Lane.setHit_s0 (l : Lane) (b : Bool) : (l.setHit b).s0 = l.s0 := rfl
@[simp] theorem Lane.setHit_s1 (l : Lane) (b : Bool) : (l.setHit b).s1 = l.s1 := rfl
@[simp] theorem Lane.setHit_sel (l : Lane) (b : Bool) : (l.setHit b).sel = l.sel := rfl
@[simp] theorem Lane.setHit_err (l : Lane) (b : Bool) : (l.setHit b).err = l.err := rfl
@[simp] theorem Lane.setHit_dvalid (l : Lane) (b : Bool) : (l.setHit b).dvalid = l.dvalid := rfl
@[simp] theorem Lane.setHit_hit (l : Lane) (b : Bool) : (l.setHit b).hit = b := rfl

/-! ### Lane.setDigest -/

@[simp] theorem Lane.setDigest_seed (l : Lane) (d : Bytes32) : (l.setDigest d).seed = l.seed := rfl
@[simp] theorem Lane.setDigest_input (l : Lane) (d : Bytes32) : (l.setDigest d).input = l.input := rfl
@[simp] theorem Lane.setDigest_digest (l : Lane) (d : Bytes32) : (l.setDigest d).digest = d := rfl
@[simp] theorem Lane.setDigest_s0 (l : Lane) (d : Bytes32) : (l.setDigest d).s0 = l.s0 := rfl
@[simp] theorem Lane.setDigest_s1 (l : Lane) (d : Bytes32) : (l.setDigest d).s1 = l.s1 := rfl
@[simp] theorem Lane.setDigest_sel (l : Lane) (d : Bytes32) : (l.setDigest d).sel = l.sel := rfl
@[simp] theorem Lane.setDigest_err (l : Lane) (d : Bytes32) : (l.setDigest d).err = l.err := rfl
@[simp] theorem Lane.setDigest_dvalid (l : Lane) (d : Bytes32) : (l.setDigest d).dvalid = true := rfl
@[simp] theorem Lane.setDigest_hit (l : Lane) (d : Bytes32) : (l.setDigest d).hit = l.hit := rfl

/-! ### Lane.clearScratch -/

@[simp] theorem Lane.clearScratch_seed (l : Lane) : (l.clearScratch).seed = l.seed := rfl
@[simp] theorem Lane.clearScratch_input (l : Lane) : (l.clearScratch).input = l.input := rfl
@[simp] theorem Lane.clearScratch_digest (l : Lane) : (l.clearScratch).digest = l.digest := rfl
@[simp] theorem Lane.clearScratch_s0 (l : Lane) : (l.clearScratch).s0 = zeroBits := rfl
@[simp] theorem Lane.clearScratch_s1 (l : Lane) : (l.clearScratch).s1 = zeroBits := rfl
@[simp] theorem Lane.clearScratch_sel (l : Lane) : (l.clearScratch).sel = false := rfl
@[simp] theorem Lane.clearScratch_err (l : Lane) : (l.clearScratch).err = l.err := rfl
@[simp] theorem Lane.clearScratch_dvalid (l : Lane) : (l.clearScratch).dvalid = l.dvalid := rfl
@[simp] theorem Lane.clearScratch_hit (l : Lane) : (l.clearScratch).hit = l.hit := rfl

/-! ### Lane.setBuffer -/

@[simp] theorem Lane.setBuffer_seed (l : Lane) (k : Bool) (v : Bits 1024) : (l.setBuffer k v).seed = l.seed := by
  cases k <;> rfl
@[simp] theorem Lane.setBuffer_input (l : Lane) (k : Bool) (v : Bits 1024) : (l.setBuffer k v).input = l.input := by
  cases k <;> rfl
@[simp] theorem Lane.setBuffer_digest (l : Lane) (k : Bool) (v : Bits 1024) : (l.setBuffer k v).digest = l.digest := by
  cases k <;> rfl
@[simp] theorem Lane.setBuffer_s0 (l : Lane) (k : Bool) (v : Bits 1024) : (l.setBuffer k v).s0 = if k then l.s0 else v := by
  cases k <;> rfl
@[simp] theorem Lane.setBuffer_s1 (l : Lane) (k : Bool) (v : Bits 1024) : (l.setBuffer k v).s1 = if k then v else l.s1 := by
  cases k <;> rfl
@[simp] theorem Lane.setBuffer_sel (l : Lane) (k : Bool) (v : Bits 1024) : (l.setBuffer k v).sel = l.sel := by
  cases k <;> rfl
@[simp] theorem Lane.setBuffer_err (l : Lane) (k : Bool) (v : Bits 1024) : (l.setBuffer k v).err = l.err := by
  cases k <;> rfl
@[simp] theorem Lane.setBuffer_dvalid (l : Lane) (k : Bool) (v : Bits 1024) : (l.setBuffer k v).dvalid = l.dvalid := by
  cases k <;> rfl
@[simp] theorem Lane.setBuffer_hit (l : Lane) (k : Bool) (v : Bits 1024) : (l.setBuffer k v).hit = l.hit := by
  cases k <;> rfl

/-! ### State.withView -/

@[simp] theorem State.withView_base (s : State) (v : View) : (s.withView v).base = s.base := rfl
@[simp] theorem State.withView_cache (s : State) (v : View) : (s.withView v).cache = v.cache := rfl
@[simp] theorem State.withView_lanes (s : State) (v : View) : (s.withView v).lanes = s.lanes.set s.cur v.lane := rfl
@[simp] theorem State.withView_pending (s : State) (v : View) : (s.withView v).pending = s.pending := rfl
@[simp] theorem State.withView_grant (s : State) (v : View) : (s.withView v).grant = s.grant := rfl
@[simp] theorem State.withView_cur (s : State) (v : View) : (s.withView v).cur = s.cur := rfl
@[simp] theorem State.withView_reply (s : State) (v : View) : (s.withView v).reply = s.reply := rfl

/-! ### State.answer -/

@[simp] theorem State.answer_base (s : State) (r : Reply) : (s.answer r).base = s.base := rfl
@[simp] theorem State.answer_cache (s : State) (r : Reply) : (s.answer r).cache = s.cache := rfl
@[simp] theorem State.answer_lanes (s : State) (r : Reply) : (s.answer r).lanes = s.lanes := rfl
@[simp] theorem State.answer_pending (s : State) (r : Reply) : (s.answer r).pending = s.pending := rfl
@[simp] theorem State.answer_grant (s : State) (r : Reply) : (s.answer r).grant = s.grant := rfl
@[simp] theorem State.answer_cur (s : State) (r : Reply) : (s.answer r).cur = s.cur := rfl
@[simp] theorem State.answer_reply (s : State) (r : Reply) : (s.answer r).reply = r := rfl

/-! ### State.take -/

@[simp] theorem State.take_base (s : State) (inp : HostInput) (rest : List HostInput) : (s.take inp rest).base = s.base := rfl
@[simp] theorem State.take_cache (s : State) (inp : HostInput) (rest : List HostInput) : (s.take inp rest).cache = s.cache := rfl
@[simp] theorem State.take_lanes (s : State) (inp : HostInput) (rest : List HostInput) : (s.take inp rest).lanes = s.lanes := rfl
@[simp] theorem State.take_pending (s : State) (inp : HostInput) (rest : List HostInput) : (s.take inp rest).pending = rest := rfl
@[simp] theorem State.take_grant (s : State) (inp : HostInput) (rest : List HostInput) : (s.take inp rest).grant = inp.grant := rfl
@[simp] theorem State.take_cur (s : State) (inp : HostInput) (rest : List HostInput) : (s.take inp rest).cur = s.cur := rfl
@[simp] theorem State.take_reply (s : State) (inp : HostInput) (rest : List HostInput) : (s.take inp rest).reply = s.reply := rfl

/-! ### resetBlock -/

@[simp] theorem resetBlock_base (s : State) : (resetBlock s).base = s.base := rfl
@[simp] theorem resetBlock_cache (s : State) : (resetBlock s).cache = none := rfl
@[simp] theorem resetBlock_lanes (s : State) : (resetBlock s).lanes = s.lanes.map fun _ => Lane.reset := rfl
@[simp] theorem resetBlock_pending (s : State) : (resetBlock s).pending = s.pending := rfl
@[simp] theorem resetBlock_grant (s : State) : (resetBlock s).grant = s.grant := rfl
@[simp] theorem resetBlock_cur (s : State) : (resetBlock s).cur = s.cur := rfl
@[simp] theorem resetBlock_reply (s : State) : (resetBlock s).reply = .nothing := rfl

/-! ### Lane writes of the host -/

@[simp] theorem writeRow_digest (l : Lane) (row : WindowRow) (off n : Nat) (v : Word) :
    (writeRow l row off n v).digest = l.digest := by
  cases row <;> simp only [writeRow]
@[simp] theorem writeRow_s0 (l : Lane) (row : WindowRow) (off n : Nat) (v : Word) :
    (writeRow l row off n v).s0 = l.s0 := by
  cases row <;> simp only [writeRow]
@[simp] theorem writeRow_s1 (l : Lane) (row : WindowRow) (off n : Nat) (v : Word) :
    (writeRow l row off n v).s1 = l.s1 := by
  cases row <;> simp only [writeRow]
@[simp] theorem writeRow_sel (l : Lane) (row : WindowRow) (off n : Nat) (v : Word) :
    (writeRow l row off n v).sel = l.sel := by
  cases row <;> simp only [writeRow]
@[simp] theorem writeRow_err (l : Lane) (row : WindowRow) (off n : Nat) (v : Word) :
    (writeRow l row off n v).err = l.err := by
  cases row <;> simp only [writeRow]
@[simp] theorem writeRow_dvalid (l : Lane) (row : WindowRow) (off n : Nat) (v : Word) :
    (writeRow l row off n v).dvalid = l.dvalid := by
  cases row <;> simp only [writeRow]
@[simp] theorem writeRow_hit (l : Lane) (row : WindowRow) (off n : Nat) (v : Word) :
    (writeRow l row off n v).hit = l.hit := by
  cases row <;> simp only [writeRow]

/-! ### Views -/

@[simp] theorem View.raise_cache (v : View) (e : ErrCode) : (v.raise e).cache = v.cache := rfl
@[simp] theorem View.raise_lane (v : View) (e : ErrCode) : (v.raise e).lane = v.lane.fail e := rfl
@[simp] theorem View.onLane_cache (v : View) (f : Lane → Lane) : (v.onLane f).cache = v.cache := rfl
@[simp] theorem View.onLane_lane (v : View) (f : Lane → Lane) : (v.onLane f).lane = f v.lane := rfl
@[simp] theorem Progress.goesOn_view (v : View) : (Progress.goesOn v).view = v := rfl
@[simp] theorem Progress.ended_view (v : View) : (Progress.ended v).view = v := rfl
@[simp] theorem Progress.goesOn_andThen (v : View) (f : View → View) : (Progress.goesOn v).andThen f = f v := rfl
@[simp] theorem Progress.ended_andThen (v : View) (f : View → View) : (Progress.ended v).andThen f = v := rfl

/-! ### The lanes -/

/-- Putting a lane back where it stands changes nothing. -/
theorem lanes_set_self {s : State} {k : Nat} {l : Lane} (h : s.lanes[k]? = some l) : s.lanes.set k l = s.lanes := by
  obtain ⟨hk, rfl⟩ := List.getElem?_eq_some_iff.1 h
  simp

/-! ### The model store -/

/-- With the model of `tag` in the store, every weight is that model's. -/
theorem weight_of_cache {s : State} {tag : Bytes32} {g : Nat} (h : s.cache = some tag) (hg : g < 67633152) :
    s.weight g = some (modelOf tag g) := by
  rw [State.weight, if_pos hg, h, Option.map_some]

/-- With no model in the store there is no weight. -/
theorem weight_of_empty {s : State} (h : s.cache = none) (g : Nat) : s.weight g = none := by
  rw [State.weight, h, Option.map_none, ite_self]

end Sys2Proof.Machine
end

