-- ==== Sys2Proof/Laws/Ops.lean ====
section
/-!
SUPPORT. What each shared operation can do, said once: running a command, rebuilding, looking up, running with the model
in the store. Later proofs cite these and do not unfold the operations.
-/

namespace Sys2Proof.Machine

/-- A command on an existing lane answers a next state, with the command's view put back. -/
theorem runOn_of_lane {s : State} {l : Lane} (h : s.lanes[s.cur]? = some l) (f : View → View) :
    runOn s f = .next (s.withView (f { cache := s.cache, lane := l })) := by
  simp only [runOn, h]

/-- If a command answers a next state, its lane exists and the state is the one with the command's view put back. -/
theorem runOn_next {s t : State} {f : View → View} (h : runOn s f = .next t) :
    ∃ l, s.lanes[s.cur]? = some l ∧ t = s.withView (f { cache := s.cache, lane := l }) := by
  unfold runOn at h
  split at h
  · cases h
  · next l hl => exact ⟨l, hl, by cases h; rfl⟩

/-- Running a command never refuses, and faults only when the issuing lane does not exist. -/
theorem runOn_cases (s : State) (f : View → View) :
    (s.lanes.length ≤ s.cur ∧ runOn s f = .fault .noSuchLane) ∨
    ∃ l, s.lanes[s.cur]? = some l ∧ runOn s f = .next (s.withView (f { cache := s.cache, lane := l })) := by
  cases h : s.lanes[s.cur]? with
  | none => exact .inl ⟨by simpa using h, by simp only [runOn, h]⟩
  | some l => exact .inr ⟨l, rfl, runOn_of_lane h f⟩

/-- A rebuild with the grant goes on with the model of the seed and fresh scratch. -/
@[simp] theorem rebuild_granted (seed : Bytes32) (v : View) :
    rebuild true seed v = .goesOn { cache := some seed, lane := v.lane.clearScratch } := rfl

/-- A rebuild without the grant ends the command with an empty cache. -/
@[simp] theorem rebuild_refused (seed : Bytes32) (v : View) :
    rebuild false seed v = .ended { cache := none, lane := v.lane.fail .allocationFailure } := rfl

/-- A hit: only `HIT` changes, whatever the grant. -/
theorem lookupModel_hit {grant : Bool} {seed : Bytes32} {v : View} (h : v.cache = some seed) :
    lookupModel grant seed v = .goesOn { v with lane := v.lane.setHit true } := by
  simp [lookupModel, h, View.onLane]

/-- A miss: `HIT` is cleared and the model rebuilt. -/
theorem lookupModel_miss {grant : Bool} {seed : Bytes32} {v : View} (h : v.cache ≠ some seed) :
    lookupModel grant seed v = rebuild grant seed { v with lane := v.lane.setHit false } := by
  simp [lookupModel, h, View.onLane]

/-- Where a lookup goes on, the store holds the model of the seed. -/
theorem lookupModel_goesOn_cache {grant : Bool} {seed : Bytes32} {u v : View}
    (h : lookupModel grant seed v = .goesOn u) : u.cache = some seed := by
  by_cases hc : v.cache = some seed
  · rw [lookupModel_hit hc] at h; cases h; exact hc
  · rw [lookupModel_miss hc] at h
    cases grant with
    | true => rw [rebuild_granted] at h; cases h; rfl
    | false => rw [rebuild_refused] at h; cases h

/-- With a model in the store, `f` runs under it. -/
theorem withModel_some {v : View} {tag : Bytes32} (h : v.cache = some tag) (f : Weights → Lane → Lane) :
    v.withModel f = { v with lane := f (modelOf tag) v.lane } := by
  simp [View.withModel, h, View.onLane]

/-- With no model in the store, NoModel is raised. -/
theorem withModel_none {v : View} (h : v.cache = none) (f : Weights → Lane → Lane) :
    v.withModel f = v.raise .noModel := by
  simp [View.withModel, h]

/-- Running under the model in the store never touches the cache entry. -/
@[simp] theorem withModel_cache (v : View) (f : Weights → Lane → Lane) : (v.withModel f).cache = v.cache := by
  cases h : v.cache with
  | none => rw [withModel_none h]; exact h
  | some tag => rw [withModel_some h]; exact h

/-- The one length that raises no error. -/
@[simp] theorem lengthOk_iff (len : Byte) : lengthOk len = true ↔ len = 32#8 := by
  simp [lengthOk]

@[simp] theorem layerOk_iff (arg : Byte) : layerOk arg = true ↔ arg ≤ 65#8 := by
  simp [layerOk]

end Sys2Proof.Machine
end

