-- ==== Sys2Proof/Laws/Exec.lean ====
section
/-!
SUPPORT. What any command can do, said once: every meaning runs one view command on the issuing lane, so it answers a next
state whenever that lane exists, and it leaves everything but the cache entry and that lane as it was.
-/

namespace Sys2Proof.Machine

/-- The view command each meaning runs. -/
def commandOf : Instr → Bool → View → View
  | .nop, _ => fun v => v
  | .mat slen, g => matCommand slen g
  | .enc ilen, _ => encCommand ilen
  | .dec, _ => fun v => v.onLane Lane.decodeCurrent
  | .srst, _ => fun v => v.onLane Lane.clearScratch
  | .lfwd arg, _ => lfwdCommand arg
  | .lookup slen, g => lookupCommand slen g
  | .hash slen ilen, g => hashCommand slen ilen g
  | .hashx ilen, _ => hashxCommand ilen
  | .clrerr, _ => fun v => v.onLane Lane.clearError

/-- Every meaning runs its view command on the issuing lane. -/
theorem exec_eq_runOn (i : Instr) (s : State) : exec i s = runOn s (commandOf i s.grant) := by
  cases i <;> rfl

/-- The state a command leaves, by its lane. -/
theorem exec_of_lane {s : State} {l : Lane} (i : Instr) (h : s.lanes[s.cur]? = some l) :
    exec i s = .next (s.withView (commandOf i s.grant { cache := s.cache, lane := l })) := by
  rw [exec_eq_runOn, runOn_of_lane h]

/-- If a command answers a next state, it is the one its view command leaves. -/
theorem exec_next {i : Instr} {s t : State} (h : exec i s = .next t) :
    ∃ l, s.lanes[s.cur]? = some l ∧ t = s.withView (commandOf i s.grant { cache := s.cache, lane := l }) :=
  runOn_next (exec_eq_runOn i s ▸ h)

/-- The issuing lane after a command is the one its view command leaves. -/
theorem withView_lane {s : State} {l : Lane} (h : s.lanes[s.cur]? = some l) (v : View) :
    (s.withView v).lanes[s.cur]? = some v.lane := by
  obtain ⟨hk, _⟩ := List.getElem?_eq_some_iff.1 h
  simp [hk]

/-- No command touches another lane. -/
theorem withView_other {s : State} {k : Nat} (h : k ≠ s.cur) (v : View) :
    (s.withView v).lanes[k]? = s.lanes[k]? := by
  simp [h.symm]

end Sys2Proof.Machine
end

