-- ==== Sys2Proof/Laws/Layers.lean ====
section
/-!
SUPPORT. The layer step and the codec's two lane operations, said once: which buffer each reads and writes, and what it
leaves alone.
-/

namespace Sys2Proof.Machine

/-- A layer step with `S0` current: `S1` takes the output and becomes current. -/
theorem layerStep_false {l : Lane} (w : Weights) (n : Nat) (h : l.sel = false) :
    l.layerStep w n = { l with s1 := layerOutput w n l.s0, sel := true } := by
  simp [Lane.layerStep, Lane.setBuffer, Lane.current, Lane.buffer, h]

/-- A layer step with `S1` current: `S0` takes the output and becomes current. -/
theorem layerStep_true {l : Lane} (w : Weights) (n : Nat) (h : l.sel = true) :
    l.layerStep w n = { l with s0 := layerOutput w n l.s1, sel := false } := by
  simp [Lane.layerStep, Lane.setBuffer, Lane.current, Lane.buffer, h]

/-- A layer step writes the scratch buffers and `SEL` only. -/
theorem layerStep_frame (w : Weights) (n : Nat) (l : Lane) :
    ∃ a b c, l.layerStep w n = { l with s0 := a, s1 := b, sel := c } := by
  cases h : l.sel with
  | false => exact ⟨_, _, _, layerStep_false w n h⟩
  | true => exact ⟨_, _, _, layerStep_true w n h⟩

/-- Any number of layer steps writes the scratch buffers and `SEL` only. -/
theorem layerSteps_frame (w : Weights) (n : Nat) (l : Lane) :
    ∃ a b c, Lane.layerSteps w n l = { l with s0 := a, s1 := b, sel := c } := by
  induction n with
  | zero => exact ⟨l.s0, l.s1, l.sel, rfl⟩
  | succ n ih =>
    obtain ⟨a, b, c, h⟩ := ih
    obtain ⟨a', b', c', h'⟩ := layerStep_frame w n (Lane.layerSteps w n l)
    exact ⟨a', b', c', by rw [Lane.layerSteps, h', h]⟩

/-- What a hidden layer writes. -/
theorem layerOutput_hidden (w : Weights) {n : Nat} (h : n < 64) (v : Bits 1024) :
    layerOutput w (n + 1) v = layerForward 1024 (hiddenMatrix w n) v := by
  simp only [layerOutput, if_neg (show ¬ n + 1 = 0 by omega), if_pos (show n + 1 ≤ 64 by omega), padBits_1024]
  rfl

/-- ENC writes the current scratch buffer only. -/
theorem encodeInput_frame (l : Lane) :
    l.encodeInput =
      if l.sel then { l with s1 := padBits (encodeBits l.input) } else { l with s0 := padBits (encodeBits l.input) } := by
  cases h : l.sel <;> simp [Lane.encodeInput, Lane.setBuffer, h]

/-- DEC writes the digest and `DVALID` only. -/
theorem decodeCurrent_frame (l : Lane) :
    l.decodeCurrent = { l with digest := decodeBits (lowBits l.current), dvalid := true } := by
  simp [Lane.decodeCurrent, Lane.setDigest]

/-- The whole pipeline writes the digest, `DVALID`, the scratch buffers and `SEL` only. -/
theorem pipeline_frame (w : Weights) (l : Lane) :
    ∃ d a b c, l.pipeline w = { l with digest := d, dvalid := true, s0 := a, s1 := b, sel := c } := by
  obtain ⟨a, b, c, h⟩ := layerSteps_frame w Config.layers l.clearScratch.encodeInput
  have e : l.clearScratch.encodeInput =
      { l with s0 := padBits (encodeBits l.input), s1 := zeroBits, sel := false } := by
    simp [encodeInput_frame, Lane.clearScratch]
  rw [e] at h
  refine ⟨decodeBits (lowBits (Lane.layerSteps w Config.layers l.clearScratch.encodeInput).current), a, b, c, ?_⟩
  rw [Lane.pipeline, decodeCurrent_frame, e, h]

end Sys2Proof.Machine
end

