-- ==== Sys2Proof/Laws/Commands.lean ====
section
/-!
SUPPORT. The one inversion lemma over all commands: how each can change the error, the digest and `DVALID`.
-/

namespace Sys2Proof.Machine

/-- Everything a command can do to its view: raise an error and nothing else; a refused grant; clear the error; or
succeed. -/
theorem commandOf_cases (i : Instr) (g : Bool) (v : View) :
    (∃ e, e ≠ .none ∧ e ≠ .allocationFailure ∧ commandOf i g v = v.raise e) ∨
    (i = .mat 32#8 ∧ g = false ∧ commandOf i g v = { cache := none, lane := v.lane.fail .allocationFailure }) ∨
    (i ∈ [Instr.lookup 32#8, Instr.hash 32#8 32#8] ∧ g = false ∧
      commandOf i g v = { cache := none, lane := (v.lane.setHit false).fail .allocationFailure }) ∨
    (i = .clrerr ∧ commandOf i g v = { v with lane := v.lane.clearError }) ∨
    ((commandOf i g v).lane.err = v.lane.err ∧
      ((commandOf i g v).lane.digest = v.lane.digest ∧ (commandOf i g v).lane.dvalid = v.lane.dvalid ∨
        i ∈ [Instr.dec, Instr.hash 32#8 32#8, Instr.hashx 32#8] ∧ (commandOf i g v).lane.dvalid = true)) := by
  cases i with
  | nop => exact .inr (.inr (.inr (.inr ⟨rfl, .inl ⟨rfl, rfl⟩⟩)))
  | dec => refine .inr (.inr (.inr (.inr ?_))); simp [commandOf, Lane.decodeCurrent]
  | srst => refine .inr (.inr (.inr (.inr ?_))); simp [commandOf]
  | clrerr => refine .inr (.inr (.inr (.inl ⟨rfl, rfl⟩)))
  | enc a =>
    by_cases h : a = 32#8
    · refine .inr (.inr (.inr (.inr ?_))); simp [commandOf, encCommand, h, Lane.encodeInput]
    · refine .inl ⟨.invalidInputLength, by simp, by simp, ?_⟩; simp [commandOf, encCommand, h]
  | mat a =>
    by_cases h : a = 32#8
    · subst h
      cases g with
      | true => refine .inr (.inr (.inr (.inr ?_))); simp [commandOf, matCommand]
      | false => refine .inr (.inl ⟨rfl, rfl, ?_⟩); simp [commandOf, matCommand]
    · refine .inl ⟨.invalidSeedLength, by simp, by simp, ?_⟩; simp [commandOf, matCommand, h]
  | lookup a =>
    by_cases h : a = 32#8
    · subst h
      by_cases hc : v.cache = some v.lane.seed
      · refine .inr (.inr (.inr (.inr ?_))); simp [commandOf, lookupCommand, lookupModel_hit hc]
      · cases g with
        | true => refine .inr (.inr (.inr (.inr ?_))); simp [commandOf, lookupCommand, lookupModel_miss hc]
        | false => refine .inr (.inr (.inl ⟨by simp, rfl, ?_⟩)); simp [commandOf, lookupCommand, lookupModel_miss hc]
    · refine .inl ⟨.invalidSeedLength, by simp, by simp, ?_⟩; simp [commandOf, lookupCommand, h]
  | lfwd a =>
    by_cases h : layerOk a = true
    · cases hc : v.cache with
      | none =>
        refine .inl ⟨.noModel, by simp, by simp, ?_⟩
        simp only [commandOf, lfwdCommand, h, if_true]
        exact withModel_none hc _
      | some tag =>
        refine .inr (.inr (.inr (.inr ?_)))
        simp only [commandOf, lfwdCommand, h, if_true]
        rw [withModel_some hc]
        simp [Lane.layerStep]
    · refine .inl ⟨.illegalCommand, by simp, by simp, ?_⟩; simp only [commandOf, lfwdCommand, h]; rfl
  | hash a b =>
    by_cases h : a = 32#8
    · by_cases h' : b = 32#8
      · subst h h'
        by_cases hc : v.cache = some v.lane.seed
        · refine .inr (.inr (.inr (.inr ?_)))
          simp only [commandOf, hashCommand, lengthOk_iff, if_true]
          rw [lookupModel_hit hc]
          simp only [Progress.goesOn_andThen]
          rw [withModel_some (v := ⟨v.cache, v.lane.setHit true⟩) (tag := v.lane.seed) hc]
          obtain ⟨d, p, q, r, e⟩ := pipeline_frame (modelOf v.lane.seed) (v.lane.setHit true)
          simp [e]
        · cases g with
          | true =>
            refine .inr (.inr (.inr (.inr ?_)))
            simp only [commandOf, hashCommand, lengthOk_iff, if_true]
            rw [lookupModel_miss hc, rebuild_granted]
            simp only [Progress.goesOn_andThen]
            rw [withModel_some (tag := v.lane.seed) rfl]
            obtain ⟨d, p, q, r, e⟩ := pipeline_frame (modelOf v.lane.seed) (v.lane.setHit false).clearScratch
            simp [e]
          | false =>
            refine .inr (.inr (.inl ⟨by simp, rfl, ?_⟩))
            simp only [commandOf, hashCommand, lengthOk_iff, if_true]
            rw [lookupModel_miss hc, rebuild_refused]
            rfl
      · refine .inl ⟨.invalidInputLength, by simp, by simp, ?_⟩; simp [commandOf, hashCommand, h, h']
    · refine .inl ⟨.invalidSeedLength, by simp, by simp, ?_⟩; simp [commandOf, hashCommand, h]
  | hashx a =>
    by_cases h : a = 32#8
    · subst h
      simp only [commandOf, hashxCommand, lengthOk_iff, if_true]
      cases hc : v.cache with
      | none => exact .inl ⟨.noModel, by simp, by simp, withModel_none hc _⟩
      | some tag =>
        refine .inr (.inr (.inr (.inr ?_)))
        rw [withModel_some hc]
        obtain ⟨d, p, q, r, e⟩ := pipeline_frame (modelOf tag) v.lane
        simp [e]
    · refine .inl ⟨.invalidInputLength, by simp, by simp, ?_⟩; simp [commandOf, hashxCommand, h]

end Sys2Proof.Machine
end

