-- ==== Sys2Proof/Laws/HostAccess.lean ====
section
/-!
SUPPORT. The register window: which accesses the block takes, which lane an address belongs to, and what a step does
with each host access, said once.
-/

namespace Sys2Proof.Machine

/-- An address in lane `k`'s window is located there. -/
theorem locate_window {s : State} {k off : Nat} (hk : k < s.lanes.length) (ho : off < 256) :
    locate s (s.base + 256 * k + off) = some (k, off) := by
  have h : s.base ≤ s.base + 256 * k + off ∧ s.base + 256 * k + off < laneBase s s.lanes.length :=
    ⟨by omega, by simp only [laneBase, Config.windowBytes]; omega⟩
  rw [locate, if_pos h]
  simp only [Config.windowBytes]
  congr 2 <;> omega

/-- An address in no window is located nowhere. -/
theorem locate_outside {s : State} {addr : Nat} (h : addr < s.base ∨ s.base + 256 * s.lanes.length ≤ addr) :
    locate s addr = none := by
  rw [locate, if_neg]
  simp only [laneBase, Config.windowBytes]
  omega

/-- An address that is located lies in the window of an existing lane. -/
theorem locate_some {s : State} {addr k off : Nat} (h : locate s addr = some (k, off)) :
    k < s.lanes.length ∧ off < 256 ∧ addr = s.base + 256 * k + off := by
  unfold locate at h
  split at h
  · next hc =>
    simp only [laneBase, Config.windowBytes, Option.some.injEq, Prod.mk.injEq] at h hc
    omega
  · cases h

/-- The widths each offset takes. -/
theorem widthOk_rowOf (off n : Nat) :
    widthOk (rowOf off) n = true ↔ (n = 1 ∨ n = 2 ∨ n = 4) ∧ (off < 8 → n = 4) := by
  unfold rowOf
  repeat' split
  all_goals simp [widthOk]
  all_goals omega

/-- An aligned access of a width the row takes lies inside the row. -/
theorem rowStop_of_aligned {off n : Nat} (ho : off < 256) (hn : n = 1 ∨ n = 2 ∨ n = 4) (ha : off % n = 0) :
    off + n ≤ rowStop off := by
  unfold rowStop
  rcases hn with rfl | rfl | rfl <;> repeat' split
  all_goals omega

/-- The accesses a window takes, by width and alignment alone. -/
theorem target_eq {addr off n : Nat} (ha : addr % 4 = off % 4) (ho : off < 256) :
    target addr off n =
      if (n = 1 ∨ n = 2 ∨ n = 4) ∧ (off < 8 → n = 4) ∧ addr % n = 0 then some (rowOf off) else none := by
  unfold target
  congr 1
  rw [widthOk_rowOf, eq_iff_iff]
  constructor
  · rintro ⟨⟨h1, h2⟩, h3, _⟩; exact ⟨h1, h2, h3⟩
  · rintro ⟨h1, h2, h3⟩
    exact ⟨⟨h1, h2⟩, h3, rowStop_of_aligned ho h1 (by rcases h1 with rfl | rfl | rfl <;> omega)⟩

/-- A step that reads in a window. -/
theorem step_read {s : State} {k off n : Nat} {l : Lane} {g : Bool} {rest : List HostInput}
    (h : s.pending = { move := .read (s.base + 256 * k + off) n, grant := g } :: rest) (hl : s.lanes[k]? = some l)
    (ho : off < 256) :
    step s = match target (s.base + 256 * k + off) off n with
      | none => .next { s with pending := rest, grant := g, reply := .refused }
      | some row => .next { s with pending := rest, grant := g, reply := .data (readRow s.valid l row off n) } := by
  obtain ⟨hk, _⟩ := List.getElem?_eq_some_iff.1 hl
  have hloc : locate (s.take { move := .read (s.base + 256 * k + off) n, grant := g } rest)
      (s.base + 256 * k + off) = some (k, off) :=
    locate_window (s := s.take { move := .read (s.base + 256 * k + off) n, grant := g } rest) hk ho
  simp only [step, nextMove, h, hostMove, hostRead, hloc, State.take_lanes, hl]
  cases target (s.base + 256 * k + off) off n <;> rfl

/-- A step that writes in a window. -/
theorem step_write {s : State} {k off n : Nat} {v : Word} {l : Lane} {g : Bool} {rest : List HostInput}
    (h : s.pending = { move := .write (s.base + 256 * k + off) n v, grant := g } :: rest) (hl : s.lanes[k]? = some l)
    (ho : off < 256) :
    step s = match target (s.base + 256 * k + off) off n with
      | none => .next { s with pending := rest, grant := g, reply := .refused }
      | some .cmd => issue k v { s with pending := rest, grant := g, reply := .nothing }
      | some row =>
        .next { s with pending := rest, grant := g, reply := .nothing, lanes := s.lanes.set k (writeRow l row off n v) } := by
  obtain ⟨hk, _⟩ := List.getElem?_eq_some_iff.1 hl
  have hloc : locate (s.take { move := .write (s.base + 256 * k + off) n v, grant := g } rest)
      (s.base + 256 * k + off) = some (k, off) :=
    locate_window (s := s.take { move := .write (s.base + 256 * k + off) n v, grant := g } rest) hk ho
  simp only [step, nextMove, h, hostMove, hostWrite, hloc, State.take_lanes, hl]
  rcases target (s.base + 256 * k + off) off n with _ | (_ | _ | _ | _ | _ | _) <;> rfl

/-- A command word on an existing lane always has a successor, which keeps the host's side of the state. -/
theorem issue_next {s : State} {k : Nat} (w : Word) (hk : k < s.lanes.length) :
    ∃ t, issue k w s = .next t ∧ t.base = s.base ∧ t.lanes.length = s.lanes.length ∧ t.pending = s.pending ∧
      t.grant = s.grant ∧ t.reply = s.reply := by
  have hl : s.lanes[k]? = some s.lanes[k] := by simp [hk]
  have run : ∀ f, ∃ t, runOn { s with cur := k } f = .next t ∧ t.base = s.base ∧ t.lanes.length = s.lanes.length ∧
      t.pending = s.pending ∧ t.grant = s.grant ∧ t.reply = s.reply := fun f =>
    ⟨_, runOn_of_lane (s := { s with cur := k }) hl f, rfl, by simp, rfl, rfl, rfl⟩
  simp only [issue, hl]
  split
  · unfold runWord
    split
    · rw [exec_eq_runOn]; exact run _
    · exact run _
  · split
    · rw [exec_eq_runOn]; exact run _
    · exact ⟨s, rfl, rfl, rfl, rfl, rfl, rfl⟩

/-! ## Bytes of a register -/

/-- What each byte of a register holds after a write. -/
theorem byteAt_writeBytes (a : Bytes32) (i n : Nat) (v : Word) {j : Nat} (h : j < 32) :
    byteAt (writeBytes a i n v) j = if i ≤ j ∧ j < i + n then valueByte v (j - i) else byteAt a j := by
  rw [byteAt_of_lt _ h, byteAt_of_lt a h]
  simp [writeBytes]

/-- Bit `i` of a bus value is bit `i mod 8` of byte `i div 8` of the access. -/
theorem getLsbD_wordOfBytes (bs : List Byte) (i : Nat) (h : i < 32) :
    (wordOfBytes bs).getLsbD i = (bs[i / 8]?.getD 0#8).getLsbD (i % 8) := by
  induction bs generalizing i with
  | nil => simp [wordOfBytes]
  | cons b bs ih =>
    simp only [wordOfBytes, BitVec.getLsbD_or, BitVec.getLsbD_setWidth, BitVec.getLsbD_shiftLeft, h, decide_true,
      Bool.true_and]
    by_cases h8 : i < 8
    · have : i / 8 = 0 := by omega
      simp [h8, this, Nat.mod_eq_of_lt h8]
    · obtain ⟨m, hm⟩ : ∃ m, i / 8 = m + 1 := ⟨i / 8 - 1, by omega⟩
      have e : (i - 8) / 8 = m ∧ (i - 8) % 8 = i % 8 := by omega
      rw [ih (i - 8) (by omega), e.1, e.2, hm, BitVec.getLsbD_of_ge b i (by omega)]
      simp [h8]

/-- A read puts byte `i + j` of the register in bits `8j+7 : 8j`. -/
theorem extract_readBytes (a : Bytes32) (i n : Nat) {j : Nat} (hj : j < n) (hn : n ≤ 4) :
    (readBytes a i n).extractLsb' (8 * j) 8 = byteAt a (i + j) := by
  apply BitVec.eq_of_getLsbD_eq
  intro b hb
  have e : (8 * j + b) / 8 = j ∧ (8 * j + b) % 8 = b := by omega
  rw [BitVec.getLsbD_extractLsb', readBytes, getLsbD_wordOfBytes _ _ (by omega), e.1, e.2]
  simp [hb, hj]

/-- A read leaves the bits above its width 0. -/
theorem readBytes_high (a : Bytes32) (i n : Nat) {b : Nat} (h : 8 * n ≤ b) : (readBytes a i n).getLsbD b = false := by
  by_cases hb : b < 32
  · have : n ≤ b / 8 := by omega
    simp [readBytes, getLsbD_wordOfBytes _ _ hb, this]
  · exact BitVec.getLsbD_of_ge _ _ (by omega)

end Sys2Proof.Machine
end

