-- ==== Sys2Proof/Laws/PerInstr.lean ====
section
/-!
SUPPORT. Facts about every command as syntax, one lemma per constructor: which row of the opcode map its word names, and
the fields of an assembled word they rest on.
-/

namespace Sys2Proof

/-- The number a command word is, by its fields (R50). -/
theorem toNat_assembleWord (op slen ilen arg : Byte) :
    (assembleWord op slen ilen arg).toNat =
      op.toNat * 2 ^ 24 + slen.toNat * 2 ^ 16 + ilen.toNat * 2 ^ 8 + arg.toNat := by
  unfold assembleWord
  rw [BitVec.toNat_append, ← Nat.shiftLeft_add_eq_or_of_lt arg.isLt, BitVec.toNat_append,
    ← Nat.shiftLeft_add_eq_or_of_lt ilen.isLt, BitVec.toNat_append, ← Nat.shiftLeft_add_eq_or_of_lt slen.isLt]
  simp only [Nat.shiftLeft_eq]
  omega

theorem opField_assembleWord (op slen ilen arg : Byte) : opField (assembleWord op slen ilen arg) = op := by
  apply BitVec.eq_of_toNat_eq
  simp only [opField, BitVec.extractLsb'_toNat, toNat_assembleWord, Nat.shiftRight_eq_div_pow]
  omega

theorem slenField_assembleWord (op slen ilen arg : Byte) :
    slenField (assembleWord op slen ilen arg) = slen := by
  apply BitVec.eq_of_toNat_eq
  simp only [slenField, BitVec.extractLsb'_toNat, toNat_assembleWord, Nat.shiftRight_eq_div_pow]
  omega

theorem ilenField_assembleWord (op slen ilen arg : Byte) :
    ilenField (assembleWord op slen ilen arg) = ilen := by
  apply BitVec.eq_of_toNat_eq
  simp only [ilenField, BitVec.extractLsb'_toNat, toNat_assembleWord, Nat.shiftRight_eq_div_pow]
  omega

theorem argField_assembleWord (op slen ilen arg : Byte) :
    argField (assembleWord op slen ilen arg) = arg := by
  apply BitVec.eq_of_toNat_eq
  simp only [argField, BitVec.extractLsb'_toNat, toNat_assembleWord, Nat.shiftRight_eq_div_pow]
  omega

/-- A word is its four fields (R50). -/
theorem assembleWord_fields (w : Word) : assembleWord (opField w) (slenField w) (ilenField w) (argField w) = w := by
  apply BitVec.eq_of_toNat_eq
  rw [toNat_assembleWord]
  simp only [opField, slenField, ilenField, argField, BitVec.extractLsb'_toNat, Nat.shiftRight_eq_div_pow]
  have := w.isLt
  omega

/-- The opcode value names its row. -/
theorem opcodeOf_some {b : Byte} {o : Opcode} (h : opcodeOf b = some o) : b = opcodeByte o := by
  unfold opcodeOf at h
  repeat' split at h
  all_goals first | (cases h; assumption) | cases h

/-- The reserved opcode values (R52). -/
theorem opcodeOf_none {b : Byte} (h : opcodeOf b = none) : 10 ≤ b.toNat := by
  unfold opcodeOf at h
  repeat' split at h
  all_goals first | (cases h; done) | bv_omega

namespace Laws.EncodedRow

/-- The row of the opcode map a command belongs to (R52). -/
def rowOf : Instr → Opcode
  | .nop => .nop
  | .mat _ => .mat
  | .enc _ => .enc
  | .dec => .dec
  | .srst => .srst
  | .lfwd _ => .lfwd
  | .lookup _ => .lookup
  | .hash _ _ => .hash
  | .hashx _ => .hashx
  | .clrerr => .clrerr

/-- The encoded word names the command's own row, and every field the row's format does not use is zero (R51, R52). -/
def Statement (i : Instr) : Prop :=
  opcodeOf (opField (encode i)) = some (rowOf i) ∧ unusedFieldsZero (opcodeFormat (rowOf i)) (encode i) = true

theorem nop : Statement .nop := by
  simp [Statement, encode, rowOf, opcodeOf, opcodeFormat, unusedFieldsZero, usesSlen, usesIlen, usesArg,
    opField_assembleWord, slenField_assembleWord, ilenField_assembleWord, argField_assembleWord]
theorem mat (slen : Byte) : Statement (.mat slen) := by
  simp [Statement, encode, rowOf, opcodeOf, opcodeFormat, unusedFieldsZero, usesSlen, usesIlen, usesArg,
    opField_assembleWord, slenField_assembleWord, ilenField_assembleWord, argField_assembleWord]
theorem enc (ilen : Byte) : Statement (.enc ilen) := by
  simp [Statement, encode, rowOf, opcodeOf, opcodeFormat, unusedFieldsZero, usesSlen, usesIlen, usesArg,
    opField_assembleWord, slenField_assembleWord, ilenField_assembleWord, argField_assembleWord]
theorem dec : Statement .dec := by
  simp [Statement, encode, rowOf, opcodeOf, opcodeFormat, unusedFieldsZero, usesSlen, usesIlen, usesArg,
    opField_assembleWord, slenField_assembleWord, ilenField_assembleWord, argField_assembleWord]
theorem srst : Statement .srst := by
  simp [Statement, encode, rowOf, opcodeOf, opcodeFormat, unusedFieldsZero, usesSlen, usesIlen, usesArg,
    opField_assembleWord, slenField_assembleWord, ilenField_assembleWord, argField_assembleWord]
theorem lfwd (arg : Byte) : Statement (.lfwd arg) := by
  simp [Statement, encode, rowOf, opcodeOf, opcodeFormat, unusedFieldsZero, usesSlen, usesIlen, usesArg,
    opField_assembleWord, slenField_assembleWord, ilenField_assembleWord, argField_assembleWord]
theorem lookup (slen : Byte) : Statement (.lookup slen) := by
  simp [Statement, encode, rowOf, opcodeOf, opcodeFormat, unusedFieldsZero, usesSlen, usesIlen, usesArg,
    opField_assembleWord, slenField_assembleWord, ilenField_assembleWord, argField_assembleWord]
theorem hash (slen ilen : Byte) : Statement (.hash slen ilen) := by
  simp [Statement, encode, rowOf, opcodeOf, opcodeFormat, unusedFieldsZero, usesSlen, usesIlen, usesArg,
    opField_assembleWord, slenField_assembleWord, ilenField_assembleWord, argField_assembleWord]
theorem hashx (ilen : Byte) : Statement (.hashx ilen) := by
  simp [Statement, encode, rowOf, opcodeOf, opcodeFormat, unusedFieldsZero, usesSlen, usesIlen, usesArg,
    opField_assembleWord, slenField_assembleWord, ilenField_assembleWord, argField_assembleWord]
theorem clrerr : Statement .clrerr := by
  simp [Statement, encode, rowOf, opcodeOf, opcodeFormat, unusedFieldsZero, usesSlen, usesIlen, usesArg,
    opField_assembleWord, slenField_assembleWord, ilenField_assembleWord, argField_assembleWord]

end Laws.EncodedRow
end Sys2Proof
end

