-- ==== Sys2Proof/Tests/Slice0.lean ====
section
/-!
SUPPORT. The model's own tests: the decoding of words written out from 30_encoding.md, small cases of 95_test_vectors.md
(T<n> is a row of it), one step each, and for every obligation with hypotheses a concrete state and operands that meet
them together (witness_<name>).
-/

namespace Sys2Proof.Tests

open Sys2Proof.Machine Sys2Proof.Spec

/-! ## Small states and what is looked at -/

/-- The reset state with lane 0 replaced. -/
def withLane0 (l : Lane) : State := { State.reset with lanes := [l] }

/-- Two lanes after reset. -/
def twoLanes : State := { State.reset with lanes := [Lane.reset, Lane.reset] }

/-- The reset state with the model of the all-zero seed in the store. -/
def primed : State := { State.reset with cache := some zeroBytes }

/-- A lane with a latched error. -/
def failedLane : Lane := { Lane.reset with err := .noModel }

/-- `s` with the host about to write the word `w` to lane 0's `CMD`, with `GRANT = g`. -/
def issuing (s : State) (w : Word) (g : Bool) : State := { s with pending := [commandInput s 0 w g] }

/-- `s` with one host move pending. -/
def moving (s : State) (m : HostMove) : State := { s with pending := [{ move := m, grant := true }] }

/-- The state a step left, if it left one. -/
def after (s : State) : Option State :=
  match step s with
  | .next t => some t
  | .fault _ => none
  | .refused _ => none

/-- `STATUS` of lane 0. -/
def status0 (s : State) : Option Word := s.lanes[0]?.map (statusWord s.valid)

/-- `STATUS` of lane 0 after one step. -/
def statusAfter (s : State) : Option Word := (after s).bind status0

/-- The host's answer after one step. -/
def replyAfter (s : State) : Option Reply := (after s).map State.reply

/-- The step answers a next state. -/
def isNext (s : State) : Bool := (after s).isSome

/-- The first four bytes of T60's digest, and its last two. -/
def digestT60 : Bytes32 := Vector.ofFn fun i : Fin 32 =>
  if i.val = 0 then 0xB8#8 else if i.val = 1 then 0x8E#8 else if i.val = 2 then 0x8D#8 else if i.val = 3 then 0x02#8
  else if i.val = 30 then 0xF8#8 else if i.val = 31 then 0xE3#8 else 0x00#8

/-- 32 zero bytes but for byte `i`. -/
def oneByte (i : Nat) (b : Byte) : Bytes32 := Vector.ofFn fun k : Fin 32 => if k.val = i then b else 0#8

/-! ## Well-formedness (30_encoding.md R55, R56) -/

theorem test_wellFormed_refuses_layer_66 : ¬ (Instr.lfwd 66#8).WellFormed := by decide
theorem test_wellFormed_refuses_layer_255 : ¬ (Instr.lfwd 255#8).WellFormed := by decide
theorem test_wellFormed_takes_layer_65 : (Instr.lfwd 65#8).WellFormed := by decide
theorem test_wellFormed_takes_wrong_lengths : (Instr.hash 0#8 255#8).WellFormed := by decide

/-! ## Decoding: each word written out field by field, op slen ilen arg (R50 to R52, T70) -/

theorem test_decode_nop : decode (0b00000000#8 ++ 0b00000000#8 ++ 0b00000000#8 ++ 0b00000000#8) = .ok .nop := by decide
theorem test_decode_mat :
    decode (0b00000001#8 ++ 0b00011111#8 ++ 0b00000000#8 ++ 0b00000000#8) = .ok (.mat 31#8) := by decide
theorem test_decode_enc :
    decode (0b00000010#8 ++ 0b00000000#8 ++ 0b00100000#8 ++ 0b00000000#8) = .ok (.enc 32#8) := by decide
theorem test_decode_dec : decode (0b00000011#8 ++ 0b00000000#8 ++ 0b00000000#8 ++ 0b00000000#8) = .ok .dec := by decide
theorem test_decode_srst :
    decode (0b00000100#8 ++ 0b00000000#8 ++ 0b00000000#8 ++ 0b00000000#8) = .ok .srst := by decide
theorem test_decode_lfwd :
    decode (0b00000101#8 ++ 0b00000000#8 ++ 0b00000000#8 ++ 0b01000001#8) = .ok (.lfwd 65#8) := by decide
theorem test_decode_lookup :
    decode (0b00000110#8 ++ 0b11111111#8 ++ 0b00000000#8 ++ 0b00000000#8) = .ok (.lookup 255#8) := by decide
theorem test_decode_hash :
    decode (0b00000111#8 ++ 0b00100000#8 ++ 0b00100001#8 ++ 0b00000000#8) = .ok (.hash 32#8 33#8) := by decide
theorem test_decode_hashx :
    decode (0b00001000#8 ++ 0b00000000#8 ++ 0b00011111#8 ++ 0b00000000#8) = .ok (.hashx 31#8) := by decide
theorem test_decode_clrerr :
    decode (0b00001001#8 ++ 0b00000000#8 ++ 0b00000000#8 ++ 0b00000000#8) = .ok .clrerr := by decide

/-- T70: the illegal words, by the step of R53 that rejects them. -/
theorem test_decode_illegal :
    decode 0x01200100#32 = .error .unusedFieldNonzero ∧ decode 0x02200000#32 = .error .unusedFieldNonzero ∧
    decode 0x03000001#32 = .error .unusedFieldNonzero ∧ decode 0x05002000#32 = .error .unusedFieldNonzero ∧
    decode 0x07202001#32 = .error .unusedFieldNonzero ∧ decode 0x09000001#32 = .error .unusedFieldNonzero ∧
    decode 0x05000042#32 = .error .layerOutOfRange ∧ decode 0x0A000000#32 = .error .reservedOpcode ∧
    decode 0xFFFFFFFF#32 = .error .reservedOpcode := by decide

/-- R60: the encodings a correct host uses. -/
theorem test_encode :
    encode (.mat 32#8) = 0x01200000#32 ∧ encode (.enc 32#8) = 0x02002000#32 ∧ encode (.lookup 32#8) = 0x06200000#32 ∧
    encode (.hash 32#8 32#8) = 0x07202000#32 ∧ encode (.hashx 32#8) = 0x08002000#32 ∧
    encode (.lfwd 1#8) = 0x05000001#32 ∧ encode (.lfwd 64#8) = 0x05000040#32 := by decide

theorem test_decodeTableWord : decodeTableWord 32 0x07202000 = some (.hash 32#8 32#8) := by decide

/-! ## The step runs every row's word as the first command after reset -/

theorem test_first_step_runs_every_row :
    ([0x00000000, 0x01200000, 0x02002000, 0x03000000, 0x04000000, 0x05000000, 0x06200000, 0x07202000, 0x08002000,
      0x09000000].all fun w => isNext (State.reset.withFetchWord 32 w)) = true := by decide

/-! ## One step each: `STATUS` (T71) -/

theorem test_status_reset : status0 State.reset = some 0x00000000#32 := by decide
theorem test_hashx_without_model : statusAfter (issuing State.reset 0x08002000#32 true) = some 0x00000004#32 := by decide
theorem test_mat_wrong_length : statusAfter (issuing State.reset 0x011F0000#32 true) = some 0x00000001#32 := by decide
theorem test_hash_refused_grant : statusAfter (issuing State.reset 0x07202000#32 false) = some 0x00000003#32 := by decide
theorem test_mat : statusAfter (issuing State.reset 0x01200000#32 true) = some 0x00000040#32 := by decide
theorem test_lookup_miss : statusAfter (issuing State.reset 0x06200000#32 true) = some 0x00000040#32 := by decide
theorem test_lookup_hit : statusAfter (issuing primed 0x06200000#32 false) = some 0x000000C0#32 := by decide
theorem test_hash_miss : statusAfter (issuing State.reset 0x07202000#32 true) = some 0x00000050#32 := by decide
theorem test_hashx : statusAfter (issuing primed 0x08002000#32 true) = some 0x00000050#32 := by decide
theorem test_lfwd : statusAfter (issuing primed 0x05000000#32 true) = some 0x00000060#32 := by decide
theorem test_lfwd_66 : statusAfter (issuing State.reset 0x05000042#32 true) = some 0x00000005#32 := by decide
theorem test_dec_after_reset : statusAfter (issuing State.reset 0x03000000#32 true) = some 0x00000010#32 := by decide
theorem test_illegal_clears_dvalid :
    statusAfter (issuing (withLane0 { Lane.reset with dvalid := true }) 0x0A000000#32 true) = some 0x00000005#32 := by
  decide
theorem test_enc_wrong_length : statusAfter (issuing State.reset 0x02000000#32 true) = some 0x00000002#32 := by decide
theorem test_srst_clears_sel :
    statusAfter (issuing (withLane0 { Lane.reset with sel := true }) 0x04000000#32 true) = some 0x00000000#32 := by
  decide
theorem test_clrerr : statusAfter (issuing (withLane0 failedLane) 0x09000000#32 true) = some 0x00000000#32 := by decide
theorem test_latched_error_drops : statusAfter (issuing (withLane0 failedLane) 0x09000001#32 true) = some 0x00000004#32 := by
  decide
theorem test_nop_dropped : statusAfter (issuing (withLane0 failedLane) 0x00000000#32 true) = some 0x00000004#32 := by
  decide

/-! ## One step each: the register window (T72) -/

theorem test_read_digest_word :
    replyAfter (moving (withLane0 { Lane.reset with digest := digestT60 }) (.read 0x60 4)) = some (.data 0x028D8EB8#32) := by
  decide
theorem test_read_digest_half :
    replyAfter (moving (withLane0 { Lane.reset with digest := digestT60 }) (.read 0x7E 2)) = some (.data 0x0000E3F8#32) := by
  decide
theorem test_read_digest_byte :
    replyAfter (moving (withLane0 { Lane.reset with digest := digestT60 }) (.read 0x7F 1)) = some (.data 0x000000E3#32) := by
  decide
theorem test_read_cmd : replyAfter (moving State.reset (.read 0x00 4)) = some (.data 0x00000000#32) := by decide
theorem test_read_reserved : replyAfter (moving State.reset (.read 0x08 4)) = some (.data 0x00000000#32) := by decide
theorem test_write_seed :
    (after (moving State.reset (.write 0x20 4 0x03020100#32))).map (fun t => t.lanes.map fun l => readBytes l.seed 0 4) =
      some [0x03020100#32] := by decide
theorem test_write_input :
    (after (moving State.reset (.write 0x5E 2 0x0000BBAA#32))).map
      (fun t => t.lanes.map fun l => (byteAt l.input 30, byteAt l.input 31)) = some [(0xAA#8, 0xBB#8)] := by decide
theorem test_write_digest_ignored :
    (after (moving State.reset (.write 0x60 4 0xFFFFFFFF#32))).map
      (fun t => (t.reply, t.lanes.map fun l => readBytes l.digest 0 4)) = some (.nothing, [0x00000000#32]) := by decide
theorem test_write_cmd_byte_refused : replyAfter (moving State.reset (.write 0x00 1 0#32)) = some .refused := by decide
theorem test_read_misaligned_refused : replyAfter (moving State.reset (.read 0x22 4)) = some .refused := by decide
theorem test_write_outside : step (moving State.reset (.write 0x100 4 0x07202000#32)) = .fault .outsideBlock := by rfl
theorem test_second_lane :
    (after (moving twoLanes (.write 0x100 4 0x0A000000#32))).map (fun t => t.lanes.map Lane.err) =
      some [.none, .illegalCommand] := by decide

/-! ## The functions (T1, T2, T13 to T16, T20 to T27) -/

theorem test_tern :
    ([0x00#8, 0x01#8, 0x02#8, 0x03#8, 0x04#8, 0x06#8, 0x07#8, 0x27#8, 0x85#8, 0xB7#8, 0xFC#8, 0xFD#8, 0xFE#8,
      0xFF#8].map fun b => ternaryValue (tern b)) = [0, 0, 1, -1, 0, 1, -1, -1, 0, -1, 0, 0, 1, -1] := by decide

theorem test_layout :
    expansionMatrix (fun g => if g = 262143 then .pos else .zero) 1023 255 = .pos ∧
    hiddenMatrix (fun g => if g = 263168 then .pos else .zero) 0 1 0 = .pos ∧
    hiddenMatrix (fun g => if g = 67371007 then .pos else .zero) 63 1023 1023 = .pos ∧
    compressionMatrix (fun g => if g = 67633151 then .pos else .zero) 255 1023 = .pos := by decide

theorem test_encode_bits :
    bitAt (encodeBits (oneByte 0 0x01#8)) 255 = true ∧ bitAt (encodeBits (oneByte 0 0x80#8)) 248 = true ∧
    bitAt (encodeBits (oneByte 31 0x80#8)) 0 = true ∧ bitAt (encodeBits (oneByte 31 0x01#8)) 7 = true :=
  ⟨(bitAt_encodeBits _ (by decide)).trans (by decide), (bitAt_encodeBits _ (by decide)).trans (by decide),
    (bitAt_encodeBits _ (by decide)).trans (by decide), (bitAt_encodeBits _ (by decide)).trans (by decide)⟩

theorem test_decode_bits :
    byteAt (decodeBits (Vector.ofFn fun t : Fin 256 => t.val == 7)) 31 = 0x01#8 ∧
    byteAt (decodeBits (Vector.ofFn fun t : Fin 256 => t.val == 248)) 0 = 0x80#8 := by decide +kernel

/-- ENC in one step: the most significant bit of `INPUT[31]` is bit 0 of `S0` (T15). -/
theorem test_enc_step :
    ∃ t l, after (issuing (withLane0 { Lane.reset with input := oneByte 31 0x80#8 }) 0x02002000#32 true) = some t ∧
      t.lanes[0]? = some l ∧ bitAt l.s0 0 = true ∧ bitAt l.s0 1 = false := by
  have h : ({ Lane.reset with input := oneByte 31 0x80#8 } : Lane).encodeInput.s0 =
      padBits (encodeBits (oneByte 31 0x80#8)) := by simp [encodeInput_frame, Lane.reset]
  refine ⟨_, { Lane.reset with input := oneByte 31 0x80#8 }.encodeInput, rfl, rfl, ?_, ?_⟩
  all_goals
    rw [h, bitAt_padBits_256, bitAt_encodeBits _ (by decide)]
    decide

/-- DEC in one step: bit 7 of the current buffer is the least significant bit of `DIGEST[31]` (T16). -/
theorem test_dec_step :
    (after (issuing (withLane0 { Lane.reset with s1 := Vector.ofFn fun t : Fin 1024 => t.val == 7, sel := true })
      0x03000000#32 true)).map (fun t => t.lanes.map fun l => byteAt l.digest 31) = some [0x01#8] := by decide +kernel

/-- T20: square, with the residual. -/
theorem test_layer_square :
    (layerForward 4 (fun j i => match j, i with
      | 0, 0 => .pos | 0, 2 => .neg | 2, _ => .neg | 3, 0 => .pos | 3, 1 => .pos | _, _ => .zero)
      #v[true, false, true, true]) = #v[true, false, false, true] := by decide

/-- T21 and its variant: not square, no residual, a sum of exactly 0 gives 0. -/
theorem test_layer_not_square :
    layerForward 2 (fun j i => match j, i with
      | 0, 0 => .pos | 0, 2 => .neg | 1, 1 => .pos | 1, _ => .neg | _, _ => .zero)
      #v[true, false, true, true] = #v[false, false] ∧
    layerForward 2 (fun j i => match j, i with
      | 0, 0 => .pos | 0, 2 => .neg | 1, 1 => .neg | 1, _ => .pos | _, _ => .zero)
      #v[true, false, true, true] = #v[false, true] := by decide

/-- T22, T23, T26, T27. -/
theorem test_layer_corners :
    layerForward 2 (fun _ _ => .zero) #v[true, false] = #v[true, false] ∧
    layerForward 2 (fun j i => if j = i then .neg else .zero) #v[true, false] = #v[false, false] ∧
    layerForward 2 (fun j _ => if j = 0 then .pos else .neg) #v[false] = #v[false, true] ∧
    layerForward 1 (fun _ _ => .zero) #v[true, true] = #v[false] := by decide

/-! ## Witnesses: a concrete state and operands that meet an obligation's hypotheses together -/

theorem witness_DecodeEncodeRoundTrip : (Instr.lfwd 65#8).WellFormed ∧ (Instr.hash 255#8 0#8).WellFormed := by decide

theorem witness_DecodedWordIsItsEncoding : decode 0x05000041#32 = .ok (.lfwd 65#8) := by decide

theorem witness_IllegalWordsRaiseIllegalCommand :
    (State.reset.lanes[0]? = some Lane.reset ∧ Lane.reset.err = .none ∧
      (withLane0 failedLane).lanes[0]? = some failedLane ∧ failedLane.err ≠ .none) ∧
    IllegalWord 0x0A000000#32 ∧ IllegalWord 0x02010000#32 ∧ IllegalWord 0x0100FF00#32 ∧ IllegalWord 0x09000001#32 ∧
    IllegalWord 0x05000042#32 ∧ ¬ IllegalWord 0x05000041#32 ∧ ¬ IllegalWord 0x09000000#32 := by
  refine ⟨⟨rfl, rfl, rfl, by decide⟩, ?_⟩
  simp [IllegalWord]

theorem witness_StepRunsDecodedCommand :
    CommandPending (issuing State.reset 0x07202000#32 true) 0 0x07202000#32 true [] ∧ State.reset.base % 256 = 0 ∧
    (issuing State.reset 0x07202000#32 true).lanes[0]? = some Lane.reset ∧ Lane.reset.err = .none ∧
    decode 0x07202000#32 = .ok (.hash 32#8 32#8) := ⟨rfl, rfl, rfl, rfl, by decide⟩

theorem witness_LatchedErrorGatesTheLane :
    CommandPending (issuing (withLane0 failedLane) 0x09000001#32 true) 0 0x09000001#32 true [] ∧
    CommandPending (issuing (withLane0 failedLane) 0x09000000#32 true) 0 0x09000000#32 true [] ∧
    (withLane0 failedLane).base % 256 = 0 ∧ (withLane0 failedLane).lanes[0]? = some failedLane ∧
    failedLane.err ≠ .none ∧ (0x09000001#32 : Word) ≠ 0x09000000#32 := ⟨rfl, rfl, rfl, rfl, by decide, by decide⟩

theorem witness_IdleStepChangesNothing : State.reset.pending = [] := rfl

theorem witness_ResetValues : Lane.reset ∈ State.reset.lanes := List.mem_cons_self

theorem witness_ResetMoveRestoresResetValues :
    (moving (withLane0 failedLane) .reset).pending = { move := .reset, grant := true } :: [] := rfl

/-- A refused and an accepted access of each kind, at the edges of `CMD`, `STATUS` and the window. -/
theorem witness_RefusedAccesses :
    (moving State.reset (.read (0 + 256 * 0 + 7) 1)).pending =
      { move := .read (State.reset.base + 256 * 0 + 7) 1, grant := true } :: [] ∧
    (moving State.reset (.write (0 + 256 * 0 + 8) 1 0xFF#32)).pending =
      { move := .write (State.reset.base + 256 * 0 + 8) 1 0xFF#32, grant := true } :: [] ∧
    State.reset.base % 256 = 0 ∧ 0 < State.reset.lanes.length ∧
    RefusedAccess (State.reset.base + 256 * 0 + 7) 7 1 ∧ ¬ RefusedAccess (State.reset.base + 256 * 0 + 8) 8 1 ∧
    RefusedAccess (State.reset.base + 256 * 0 + 0x22) 0x22 4 ∧ ¬ RefusedAccess (State.reset.base + 256 * 0 + 4) 4 4 ∧
    RefusedAccess (State.reset.base + 256 * 0 + 0x20) 0x20 3 ∧
    ¬ RefusedAccess (State.reset.base + 256 * 0 + 255) 255 1 := by
  refine ⟨rfl, rfl, rfl, by decide, ?_⟩
  unfold RefusedAccess
  decide

/-- An accepted access in every clause, at the clause's first and last offset. -/
theorem witness_ReadsReturnTheAddressedBytes :
    (∀ off n, (moving State.reset (.read (0 + 256 * 0 + off) n)).pending =
      { move := .read (State.reset.base + 256 * 0 + off) n, grant := true } :: []) ∧
    State.reset.base % 256 = 0 ∧ State.reset.lanes[0]? = some Lane.reset ∧
    ∀ p ∈ [(0, 4), (0x08, 1), (0x1F, 1), (0x20, 4), (0x3F, 1), (0x40, 4), (0x5E, 2), (0x60, 4), (0x7F, 1), (0x80, 4),
      (0xFF, 1)], p.1 < 256 ∧ ¬ RefusedAccess (State.reset.base + 256 * 0 + p.1) p.1 p.2 := by
  refine ⟨fun _ _ => rfl, rfl, rfl, ?_⟩
  unfold RefusedAccess
  decide

theorem witness_WritesStoreTheAddressedBytes :
    (∀ off n v, (moving State.reset (.write (0 + 256 * 0 + off) n v)).pending =
      { move := .write (State.reset.base + 256 * 0 + off) n v, grant := true } :: []) ∧
    State.reset.base % 256 = 0 ∧ State.reset.lanes[0]? = some Lane.reset ∧
    ∀ p ∈ [(0, 4), (4, 4), (0x1F, 1), (0x20, 1), (0x3C, 4), (0x40, 2), (0x5F, 1), (0x60, 4), (0xFF, 1)],
      p.1 < 256 ∧ ¬ RefusedAccess (State.reset.base + 256 * 0 + p.1) p.1 p.2 := by
  refine ⟨fun _ _ _ => rfl, rfl, rfl, ?_⟩
  unfold RefusedAccess
  decide

/-- A lane for every error code, and the two moves. -/
theorem witness_StatusWordFields :
    (∀ e : ErrCode, (withLane0 { Lane.reset with err := e }).lanes[0]? = some { Lane.reset with err := e }) ∧
    State.reset.base % 256 = 0 ∧
    (moving State.reset (.read 4 4)).pending = { move := .read (State.reset.base + 256 * 0 + 4) 4, grant := true } :: [] ∧
    (moving State.reset (.write 4 4 1#32)).pending =
      { move := .write (State.reset.base + 256 * 0 + 4) 4 1#32, grant := true } :: [] :=
  ⟨fun _ => rfl, rfl, rfl, rfl⟩

/-- An address just below the block and one just above it. -/
theorem witness_AccessOutsideTheBlockStops :
    ({ State.reset with base := 256 } : State).base ≤ 256 ∧ 255 < ({ State.reset with base := 256 } : State).base ∧
    State.reset.base + 256 * State.reset.lanes.length ≤ 256 ∧
    (moving { State.reset with base := 256 } (.read 255 1)).pending = { move := .read 255 1, grant := true } :: [] ∧
    (moving State.reset (.write 256 4 0#32)).pending = { move := .write 256 4 0#32, grant := true } :: [] :=
  ⟨by decide, by decide, by decide, rfl, rfl⟩

theorem witness_NopDoesNothing :
    State.reset.cur < State.reset.lanes.length ∧
    CommandPending (issuing (withLane0 failedLane) 0#32 true) 0 0x00000000#32 true [] ∧
    (withLane0 failedLane).base % 256 = 0 ∧ 0 < (withLane0 failedLane).lanes.length ∧
    State.reset.lanes[0]? = some Lane.reset ∧ Lane.reset.err = .none ∧ (0x00000001#32 : Word).toNat / 2 ^ 24 = 0 ∧
    (0x00000001#32 : Word) ≠ 0x00000000#32 := ⟨by decide, rfl, rfl, by decide, rfl, rfl, by decide, by decide⟩

theorem witness_MatRebuildsUnconditionally :
    primed.lanes[primed.cur]? = some Lane.reset ∧ primed.grant = true := ⟨rfl, rfl⟩

theorem witness_MatInstallsTheModelOfTheSeed :
    State.reset.lanes[State.reset.cur]? = some Lane.reset ∧ State.reset.grant = true ∧ 67633151 < 67633152 :=
  ⟨rfl, rfl, by decide⟩

/-- A refused grant with a model in the store that is not the seed's. -/
theorem witness_RefusedGrantEmptiesTheCache :
    ({ primed with grant := false, cache := some (oneByte 0 1#8) } : State).lanes[0]? = some Lane.reset ∧
    ({ primed with grant := false, cache := some (oneByte 0 1#8) } : State).grant = false ∧
    ({ primed with grant := false, cache := some (oneByte 0 1#8) } : State).cache ≠ some Lane.reset.seed :=
  ⟨rfl, rfl, by decide⟩

theorem witness_WrongSeedLengthRaisesInvalidSeedLength :
    State.reset.lanes[State.reset.cur]? = some Lane.reset ∧ (31#8 : Byte) ≠ 32#8 ∧ (0#8 : Byte) ≠ 32#8 :=
  ⟨rfl, by decide, by decide⟩

theorem witness_WrongInputLengthRaisesInvalidInputLength :
    State.reset.lanes[State.reset.cur]? = some Lane.reset ∧ (33#8 : Byte) ≠ 32#8 ∧ (255#8 : Byte) ≠ 32#8 :=
  ⟨rfl, by decide, by decide⟩

theorem witness_EncWritesTheCodeOfTheInput : State.reset.lanes[State.reset.cur]? = some Lane.reset := rfl
theorem witness_DecWritesTheDigest :
    (withLane0 { Lane.reset with sel := true }).lanes[0]? = some { Lane.reset with sel := true } := rfl

theorem witness_SrstClearsTheScratchBuffers :
    State.reset.lanes[State.reset.cur]? = some Lane.reset ∧ Lane.reset.err = .none ∧
    (0x04010000#32 : Word).toNat / 2 ^ 24 = 4 ∧ (0x04010000#32 : Word) ≠ 0x04000000#32 :=
  ⟨rfl, rfl, by decide, by decide⟩

/-- The clauses: layer 0, the first and the last hidden round, layer 65; the last output index. -/
theorem witness_LfwdRunsOneLayer :
    primed.lanes[primed.cur]? = some Lane.reset ∧ primed.cache = some zeroBytes ∧ (65#8 : Byte) ≤ 65#8 ∧
    (0#8 : Byte) ≤ 65#8 ∧ (1#8 : Byte).toNat = 0 + 1 ∧ (64#8 : Byte).toNat = 63 + 1 ∧ 63 < 64 ∧ 1023 < 1024 :=
  ⟨rfl, rfl, by decide, by decide, by decide, by decide, by decide, by decide⟩

theorem witness_LayersWithoutAModelRaiseNoModel :
    State.reset.lanes[State.reset.cur]? = some Lane.reset ∧ State.reset.cache = none ∧ (65#8 : Byte) ≤ 65#8 :=
  ⟨rfl, rfl, by decide⟩

theorem witness_LfwdBeyondTheLastLayerIsIllegal :
    State.reset.lanes[State.reset.cur]? = some Lane.reset ∧ (65#8 : Byte) < 66#8 := ⟨rfl, by decide⟩

/-- A hit, a granted miss and a refused miss. -/
theorem witness_LookupHitsOrRebuilds :
    (primed.lanes[primed.cur]? = some Lane.reset ∧ primed.cache = some Lane.reset.seed) ∧
    (State.reset.lanes[State.reset.cur]? = some Lane.reset ∧ State.reset.cache ≠ some Lane.reset.seed ∧
      State.reset.grant = true) ∧
    ({ State.reset with grant := false } : State).cache ≠ some Lane.reset.seed ∧
    ({ State.reset with grant := false } : State).grant = false :=
  ⟨⟨rfl, rfl⟩, ⟨rfl, by decide, rfl⟩, by decide, rfl⟩

theorem witness_HashComputesTensHash :
    State.reset.lanes[State.reset.cur]? = some Lane.reset ∧ State.reset.grant = true ∧
    primed.cache = some Lane.reset.seed := ⟨rfl, rfl, rfl⟩

theorem witness_HashxComputesTensHashUnderThePresentModel :
    primed.lanes[primed.cur]? = some Lane.reset ∧ primed.cache = some zeroBytes := ⟨rfl, rfl⟩

theorem witness_ClrerrClearsTheError :
    (withLane0 failedLane).lanes[0]? = some failedLane ∧ failedLane.err ≠ .none ∧
    State.reset.lanes[0]? = some Lane.reset ∧ Lane.reset.err = .none ∧ (0x09000001#32 : Word).toNat / 2 ^ 24 = 9 ∧
    (0x09000001#32 : Word) ≠ 0x09000000#32 := ⟨rfl, by decide, rfl, rfl, by decide, by decide⟩

theorem witness_EveryCommandWordHasASuccessor : 0 < State.reset.lanes.length := by decide

/-- Lane 0 runs a command beside lane 1. -/
theorem witness_CommandsWriteOnlyTheirOwnLane :
    (∃ t, exec .clrerr twoLanes = .next t ∧ t.lanes[twoLanes.cur]? = some Lane.reset) ∧ 1 ≠ twoLanes.cur ∧
    twoLanes.lanes[twoLanes.cur]? = some Lane.reset := ⟨⟨_, rfl, rfl⟩, by decide, rfl⟩

theorem witness_SharedStateIsWrittenOnlyByARebuild :
    (∃ t, exec (.mat 32#8) State.reset = .next t) ∧ State.reset.lanes[State.reset.cur]? = some Lane.reset ∧
    NeverRebuilds .dec := ⟨⟨_, rfl⟩, rfl, fun _ _ => ⟨nofun, nofun, nofun⟩⟩

/-- An error that is not code 3, code 3 in MAT and code 3 in HASH. -/
theorem witness_ErrorsArePrecise :
    (∃ t, issue 0 0x0A000000#32 State.reset = .next t ∧ (t.lanes[0]?).map Lane.err = some .illegalCommand) ∧
    (∃ t, issue 0 0x01200000#32 { State.reset with grant := false } = .next t ∧
      (t.lanes[0]?).map Lane.err = some .allocationFailure) ∧
    (∃ t, issue 0 0x07202000#32 { State.reset with grant := false } = .next t ∧
      (t.lanes[0]?).map Lane.err = some .allocationFailure) ∧
    State.reset.lanes[0]? = some Lane.reset ∧ Lane.reset.err = .none :=
  ⟨⟨_, rfl, rfl⟩, ⟨_, rfl, rfl⟩, ⟨_, rfl, rfl⟩, rfl, rfl⟩

/-- A DEC that sets `DVALID`. -/
theorem witness_DigestChangesOnlyOnSuccess :
    State.reset.lanes[State.reset.cur]? = some Lane.reset ∧ exec .dec State.reset =
      .next (State.reset.withView { cache := none, lane := Lane.reset.decodeCurrent }) ∧
    (State.reset.withView { cache := none, lane := Lane.reset.decodeCurrent }).lanes[0]? = some Lane.reset.decodeCurrent ∧
    Lane.reset.dvalid = false ∧ Lane.reset.decodeCurrent.dvalid = true := ⟨rfl, rfl, rfl, rfl, rfl⟩

theorem witness_ErrorsAreNeverDataDependent :
    State.reset.lanes[State.reset.cur]? = some Lane.reset ∧ State.reset.grant = true := ⟨rfl, rfl⟩

/-- Two states that differ in the cache, the lane and its flags. -/
theorem witness_HashDigestDependsOnlyOnSeedAndInput :
    primed.lanes[primed.cur]? = some Lane.reset ∧
    ({ twoLanes with cur := 1, lanes := [failedLane, { Lane.reset with hit := true }] } : State).lanes[1]? =
      some { Lane.reset with hit := true } ∧
    Lane.reset.seed = ({ Lane.reset with hit := true } : Lane).seed ∧
    Lane.reset.input = ({ Lane.reset with hit := true } : Lane).input ∧ primed.grant = true ∧ twoLanes.grant = true :=
  ⟨rfl, rfl, rfl, rfl, rfl, rfl⟩

theorem witness_CacheTransparency : State.reset.lanes[State.reset.cur]? = some Lane.reset ∧ State.reset.grant = true :=
  ⟨rfl, rfl⟩

theorem witness_MacroCommandsEqualTheirPrimitiveForms :
    primed.base % 256 = 0 ∧ primed.lanes[0]? = some Lane.reset ∧ Lane.reset.err = .none ∧ primed.cache ≠ none :=
  ⟨rfl, rfl, rfl, nofun⟩

theorem witness_ConcurrentRequestsBuildOneModel :
    twoLanes.base % 256 = 0 ∧ (0 : Nat) ≠ 1 ∧ twoLanes.lanes[0]? = some Lane.reset ∧
    twoLanes.lanes[1]? = some Lane.reset ∧ Lane.reset.err = .none ∧ twoLanes.cache ≠ some Lane.reset.seed :=
  ⟨rfl, by decide, rfl, rfl, rfl, nofun⟩

theorem witness_CommandsThatDoNotRebuildCommuteAcrossLanes :
    (0 : Nat) ≠ 1 ∧ 0 < twoLanes.lanes.length ∧ 1 < twoLanes.lanes.length ∧ NeverRebuilds (.hashx 32#8) ∧
    NeverRebuilds .clrerr :=
  ⟨by decide, by decide, by decide, fun _ _ => ⟨nofun, nofun, nofun⟩, fun _ _ => ⟨nofun, nofun, nofun⟩⟩

/-- The invariant holds of a state whose step issues a command. -/
theorem witness_StepKeepsTheInvariant :
    (issuing State.reset 0x09000000#32 true).Inv ∧ ∃ t, step (issuing State.reset 0x09000000#32 true) = .next t :=
  ⟨⟨by decide, by decide, fun l hl => by rw [List.mem_singleton.1 hl]; exact fun h => absurd rfl h⟩, _, rfl⟩

theorem witness_ParametersNeverChange : ∃ t, step (issuing State.reset 0x09000000#32 true) = .next t := ⟨_, rfl⟩

theorem witness_InBlockRunsNeverStop :
    (issuing State.reset 0x09000000#32 true).Inv ∧ PendingInBlock (issuing State.reset 0x09000000#32 true) :=
  ⟨witness_StepKeepsTheInvariant.1, fun inp hi => by rw [List.mem_singleton.1 hi]; exact ⟨by decide, by decide⟩⟩

/-- Bytes of every residue, and two bytes with equal low bits. -/
theorem witness_TernaryMap :
    (0xFC#8 : Byte).toNat % 4 = 0 ∧ (0xFD#8 : Byte).toNat % 4 = 1 ∧ (0xFE#8 : Byte).toNat % 4 = 2 ∧
    (0xFF#8 : Byte).toNat % 4 = 3 ∧ (0xB7#8 : Byte).extractLsb' 0 2 = (0x03#8 : Byte).extractLsb' 0 2 := by decide

theorem witness_MatricesTileTheModelStore :
    67633151 < 67633152 ∧ (Entry.c 255 1023).Legal ∧ (Entry.c 255 1023).index = 67633151 ∧
    (Entry.hd 63 1023 1023).Legal ∧ (Entry.e 1023 255).Legal := by
  unfold Entry.Legal Entry.index
  decide

theorem witness_EncodeReversesBytesAndUnpacksMsbFirst : 31 < 32 ∧ 7 < 8 ∧ zeroBytes[31 - 31]? = some 0#8 :=
  ⟨by decide, by decide, rfl⟩

theorem witness_DecodePacksMsbFirstAndReversesBytes : 31 < 32 := by decide

theorem witness_EncodeListsTheBitsOfTheInteger : 255 < 256 := by decide

theorem witness_LayerFunction : 255 < 256 := by decide

theorem witness_ZeroRowsGiveZeroOrTheInputBit : 1023 < 1024 ∧ ∀ i < 1024, (fun _ _ => .zero : Matrix) 1023 i = .zero :=
  ⟨by decide, fun _ _ => rfl⟩

end Sys2Proof.Tests
end

section
/-!
PROOFS. The state after reset (10_state.md R28): its lanes, its zero registers and its STATUS word.
-/

namespace Sys2Proof.Machine

/-- Every byte of a 32-byte register is zero after reset. -/
theorem zeroBytes_getElem? {i : Nat} (h : i < 32) : zeroBytes[i]? = some 0#8 := by
  simp [zeroBytes, h]

/-- Every bit of a scratch buffer is zero after reset. -/
theorem zeroBits_getElem? {t : Nat} (h : t < 1024) : zeroBits[t]? = some false := by
  simp [zeroBits, h]

/-- The lanes of the block after reset are reset lanes, and there is one. -/
@[simp] theorem mem_reset_lanes_iff (l : Lane) : l ∈ State.reset.lanes ↔ l = Lane.reset := by
  simp [State.reset]

/-- With `VALID = 0`, a reset lane's `STATUS` reads 0 (R21, R28). -/
theorem statusWord_reset : statusWord false Lane.reset = 0x00000000#32 := by decide

end Sys2Proof.Machine

namespace Sys2Proof.Spec

open Sys2Proof.Machine

/-- Settles O9: the cache is empty, so `W` has no weight, and every lane of the reset state is `Lane.reset`, whose
registers are zero index by index. -/
theorem resetValues : Obligations.ResetValues := by
  unfold Obligations.ResetValues
  have hcache : State.reset.cache = none := rfl
  have hlane : Lane.reset ∈ State.reset.lanes := (mem_reset_lanes_iff _).2 rfl
  refine ⟨rfl, hcache, weight_of_empty hcache, List.ne_nil_of_mem hlane, fun l hl => ?_⟩
  obtain rfl := (mem_reset_lanes_iff l).1 hl
  exact ⟨fun _ hi => ⟨zeroBytes_getElem? hi, zeroBytes_getElem? hi, zeroBytes_getElem? hi⟩,
    fun _ ht => ⟨zeroBits_getElem? ht, zeroBits_getElem? ht⟩, rfl, rfl, rfl, rfl, statusWord_reset⟩

end Sys2Proof.Spec
end

section
/-!
PROOFS. Host accesses inside the block (20_memory.md R33 to R37): which are refused, what an accepted access answers, and
what an accepted write leaves in the lane.
-/

namespace Sys2Proof.Machine

/-! ## The rows by their offsets (R31) -/

theorem rowOf_eq_cmd_iff (off : Nat) : rowOf off = .cmd ↔ off < 4 := by
  unfold rowOf
  repeat' split
  all_goals simp
  all_goals omega

theorem rowOf_eq_seed_iff (off : Nat) : rowOf off = .seed ↔ 0x20 ≤ off ∧ off < 0x40 := by
  unfold rowOf
  repeat' split
  all_goals simp
  all_goals omega

theorem rowOf_eq_input_iff (off : Nat) : rowOf off = .input ↔ 0x40 ≤ off ∧ off < 0x60 := by
  unfold rowOf
  repeat' split
  all_goals simp
  all_goals omega

/-! ## What an accepted write stores (R35) -/

/-- Only `SEED` and `INPUT` take a write; every other row ignores it. -/
theorem writeRow_ignored {row : WindowRow} (l : Lane) (off n : Nat) (v : Word) (hseed : row ≠ .seed)
    (hinput : row ≠ .input) : writeRow l row off n v = l := by
  cases row with
  | seed => exact absurd rfl hseed
  | input => exact absurd rfl hinput
  | cmd | status | digest | reserved => rfl

/-- The entries of a register after a write from byte `i` on. -/
theorem writeBytes_getElem? (a : Bytes32) (i n : Nat) (v : Word) {j : Nat} (hj : j < 32) :
    (writeBytes a i n v)[j]? =
      if i ≤ j ∧ j < i + n then some (v.extractLsb' (8 * (j - i)) 8) else a[j]? := by
  rw [getElem?_eq_byteAt _ hj, getElem?_eq_byteAt a hj, byteAt_writeBytes a i n v hj]
  split <;> rfl

end Sys2Proof.Machine

namespace Sys2Proof.Spec

open Sys2Proof.Machine

/-! ## Refused and accepted accesses (R33, R37) -/

theorem not_refusedAccess_iff (addr off n : Nat) :
    ¬ RefusedAccess addr off n ↔ (n = 1 ∨ n = 2 ∨ n = 4) ∧ (off < 8 → n = 4) ∧ addr % n = 0 := by
  unfold RefusedAccess
  tauto

section Access

variable {s : State} {k off n : Nat} {v : Word} {l : Lane} {g : Bool} {rest : List HostInput}

/-- `BASE` and the windows are multiples of 4, so the offset has the address's alignment. -/
theorem windowAddr_mod_four (hbase : s.base % 256 = 0) : (s.base + 256 * k + off) % 4 = off % 4 := by
  omega

theorem target_of_refused (hbase : s.base % 256 = 0) (ho : off < 256)
    (hr : RefusedAccess (s.base + 256 * k + off) off n) : target (s.base + 256 * k + off) off n = none := by
  rw [target_eq (windowAddr_mod_four hbase) ho, if_neg]
  exact fun hc => (not_refusedAccess_iff _ _ _).2 hc hr

theorem target_of_accepted (hbase : s.base % 256 = 0) (ho : off < 256)
    (hr : ¬ RefusedAccess (s.base + 256 * k + off) off n) :
    target (s.base + 256 * k + off) off n = some (rowOf off) := by
  rw [target_eq (windowAddr_mod_four hbase) ho, if_pos ((not_refusedAccess_iff _ _ _).1 hr)]

section Read

variable (hp : s.pending = { move := .read (s.base + 256 * k + off) n, grant := g } :: rest)
  (hbase : s.base % 256 = 0) (hl : s.lanes[k]? = some l) (ho : off < 256)
include hp hbase hl ho

theorem step_read_refused (hr : RefusedAccess (s.base + 256 * k + off) off n) :
    step s = .next { taken s g rest with reply := .refused } := by
  rw [step_read hp hl ho, target_of_refused hbase ho hr]
  rfl

theorem step_read_accepted (hr : ¬ RefusedAccess (s.base + 256 * k + off) off n) :
    step s = .next { taken s g rest with reply := .data (readRow s.valid l (rowOf off) off n) } := by
  rw [step_read hp hl ho, target_of_accepted hbase ho hr]
  rfl

end Read

section Write

variable (hp : s.pending = { move := .write (s.base + 256 * k + off) n v, grant := g } :: rest)
  (hbase : s.base % 256 = 0) (hl : s.lanes[k]? = some l) (ho : off < 256)
include hp hbase hl ho

theorem step_write_refused (hr : RefusedAccess (s.base + 256 * k + off) off n) :
    step s = .next { taken s g rest with reply := .refused } := by
  rw [step_write hp hl ho, target_of_refused hbase ho hr]
  rfl

/-- An accepted write to `CMD` issues its word (R38). -/
theorem step_write_cmd (hr : ¬ RefusedAccess (s.base + 256 * k + off) off n) (hcmd : off < 4) :
    step s = issue k v (taken s g rest) := by
  rw [step_write hp hl ho, target_of_accepted hbase ho hr, (rowOf_eq_cmd_iff off).2 hcmd]
  rfl

/-- An accepted write beyond `CMD` is a write to its row of the lane, and touches nothing else. -/
theorem step_write_register (hr : ¬ RefusedAccess (s.base + 256 * k + off) off n) (hcmd : 4 ≤ off) :
    step s = .next { taken s g rest with lanes := s.lanes.set k (writeRow l (rowOf off) off n v) } := by
  have hrow : rowOf off ≠ .cmd := fun hc => by rw [rowOf_eq_cmd_iff] at hc; omega
  rw [step_write hp hl ho, target_of_accepted hbase ho hr]
  cases hc : rowOf off with
  | cmd => exact absurd hc hrow
  | status | seed | input | digest | reserved => rfl

/-- Every accepted write, a command or not, is answered with nothing. -/
theorem step_write_accepted_reply (hr : ¬ RefusedAccess (s.base + 256 * k + off) off n) :
    ∃ t, step s = .next t ∧ t.reply = .nothing := by
  by_cases hcmd : off < 4
  · obtain ⟨hk, _⟩ := List.getElem?_eq_some_iff.1 hl
    obtain ⟨t, ht, -, -, -, -, hreply⟩ := issue_next (s := taken s g rest) v hk
    exact ⟨t, (step_write_cmd hp hbase hl ho hr hcmd).trans ht, hreply⟩
  · exact ⟨_, step_write_register hp hbase hl ho hr (by omega), rfl⟩

end Write

end Access

/-- Settles O11: alignment and width alone decide whether the window takes an access; a refused one only sets the answer,
an accepted read answers data, and an accepted write answers nothing even when it issues a command. -/
theorem refusedAccesses : Obligations.RefusedAccesses := by
  unfold Obligations.RefusedAccesses
  intro s k off n v g rest hbase hk ho
  have hl : s.lanes[k]? = some s.lanes[k] := List.getElem?_eq_getElem hk
  refine ⟨fun hp => ⟨?_, ?_⟩, fun hp => ⟨?_, ?_⟩⟩
  · exact step_read_refused hp hbase hl ho
  · exact fun hr => ⟨_, step_read_accepted hp hbase hl ho hr⟩
  · exact step_write_refused hp hbase hl ho
  · exact step_write_accepted_reply hp hbase hl ho

/-- Settles O13: beyond `CMD` an accepted write puts its row's `writeRow` in the lane, which stores the bytes in `SEED` and
`INPUT` and is the lane itself elsewhere. -/
theorem writesStoreTheAddressedBytes : Obligations.WritesStoreTheAddressedBytes := by
  unfold Obligations.WritesStoreTheAddressedBytes
  intro s k off n l v g rest hbase hl ho hp hr
  have hreg : 4 ≤ off → step s = .next { taken s g rest with
      lanes := s.lanes.set k (writeRow l (rowOf off) off n v) } := step_write_register hp hbase hl ho hr
  refine ⟨fun hlo hhi => ?_, fun hlo hhi => ?_, fun hoff => ?_, step_write_cmd hp hbase hl ho hr⟩
  · have hrow := (rowOf_eq_seed_iff off).2 ⟨hlo, hhi⟩
    rw [hreg (by omega), hrow]
    exact ⟨_, rfl, fun j hj => writeBytes_getElem? l.seed (off - 0x20) n v hj⟩
  · have hrow := (rowOf_eq_input_iff off).2 ⟨hlo, hhi⟩
    rw [hreg (by omega), hrow]
    exact ⟨_, rfl, fun j hj => writeBytes_getElem? l.input (off - 0x40) n v hj⟩
  · have hseed : rowOf off ≠ .seed := fun hc => by rw [rowOf_eq_seed_iff] at hc; omega
    have hinput : rowOf off ≠ .input := fun hc => by rw [rowOf_eq_input_iff] at hc; omega
    rw [hreg (by omega), writeRow_ignored l off n v hseed hinput, lanes_set_self hl]
    rfl

end Sys2Proof.Spec
end

section
/-!
PROOFS. The illegal words (30_encoding.md R56): the words by the numbers of their fields, the words that decode in each row
of the opcode map, and what a lane does with a word that is no command.
-/

namespace Sys2Proof

/-! ## The fields as numbers (R50) -/

theorem opField_toNat (w : Word) : (opField w).toNat = w.toNat / 2 ^ 24 := by
  simp only [opField, BitVec.extractLsb'_toNat, Nat.shiftRight_eq_div_pow]
  have := w.isLt
  omega

theorem slenField_toNat (w : Word) : (slenField w).toNat = w.toNat / 2 ^ 16 % 256 := by
  simp only [slenField, BitVec.extractLsb'_toNat, Nat.shiftRight_eq_div_pow, Nat.reducePow]

theorem ilenField_toNat (w : Word) : (ilenField w).toNat = w.toNat / 2 ^ 8 % 256 := by
  simp only [ilenField, BitVec.extractLsb'_toNat, Nat.shiftRight_eq_div_pow, Nat.reducePow]

theorem argField_toNat (w : Word) : (argField w).toNat = w.toNat % 256 := by
  simp only [argField, BitVec.extractLsb'_toNat, Nat.shiftRight_zero, Nat.reducePow]

/-- The test of R53 step 3, by the numbers of the fields. -/
theorem unusedFieldsZero_iff (f : Format) (w : Word) :
    unusedFieldsZero f w = true ↔
      (usesSlen f = true ∨ w.toNat / 2 ^ 16 % 256 = 0) ∧ (usesIlen f = true ∨ w.toNat / 2 ^ 8 % 256 = 0) ∧
      (usesArg f = true ∨ w.toNat % 256 = 0) := by
  simp [unusedFieldsZero, ← BitVec.toNat_inj, slenField_toNat, ilenField_toNat, argField_toNat, and_assoc]

/-! ## The words that decode (R53) -/

theorem decode_of_reserved {w : Word} (h : opcodeOf (opField w) = none) : decode w = .error .reservedOpcode := by
  simp only [decode, h]

/-- In a row of the opcode map, the tests of R53 steps 3 and 4 alone decide whether a word is a command. -/
theorem decodes_iff_of_row {w : Word} {o : Opcode} (h : opcodeOf (opField w) = some o) :
    (∃ i, decode w = .ok i) ↔ unusedFieldsZero (opcodeFormat o) w = true ∧ ¬ (o = .lfwd ∧ 66 ≤ w.toNat % 256) := by
  have harg : lastLayer < argField w ↔ 66 ≤ w.toNat % 256 := by
    rw [BitVec.lt_def, argField_toNat]
    rfl
  simp only [decode, h, harg]
  split
  · next hfields =>
    split
    · next hlayer => simp [hlayer]
    · next hlayer => simp [hfields, hlayer]
  · next hfields => simp [hfields]

end Sys2Proof

namespace Sys2Proof.Machine

section NoCommand

variable {s : State} {k : Nat} {l : Lane} {w : Word} (hl : s.lanes[k]? = some l) (hw : ¬ ∃ i, decode w = .ok i)
include hl hw

/-- A word that is no command makes an ungated lane take IllegalCommand (R53 steps 2 to 4). -/
theorem issue_no_command (herr : l.err = .none) :
    issue k w s = .next { s with cur := k, lanes := s.lanes.set k (l.fail .illegalCommand) } := by
  cases hd : decode w with
  | ok i => exact absurd ⟨i, hd⟩ hw
  | error e =>
    simp only [issue, hl, if_pos herr, runWord, hd]
    exact runOn_of_lane (s := { s with cur := k }) hl _

/-- The one word a gated lane takes is a command, so a word that is none is dropped (R53 step 1, R134). -/
theorem issue_no_command_gated (herr : l.err ≠ .none) : issue k w s = .next s := by
  have hclr : w ≠ clrErrWord := by
    rintro rfl
    exact hw ⟨.clrerr, by decide⟩
  simp only [issue, hl, if_neg herr, if_neg hclr]

end NoCommand

end Sys2Proof.Machine

namespace Sys2Proof.Spec

open Sys2Proof.Machine

/-! ## The list of R56 against the decoder -/

theorem illegalWord_of_reserved {w : Word} (h : opcodeOf (opField w) = none) : IllegalWord w := by
  have hop := opcodeOf_none h
  rw [opField_toNat] at hop
  exact .inl hop

/-- In a row of the opcode map, R56 lists the words that fail the test of R53 step 3 or step 4. -/
theorem illegalWord_iff_of_row {w : Word} {o : Opcode} (h : opcodeOf (opField w) = some o) :
    IllegalWord w ↔ ¬ (unusedFieldsZero (opcodeFormat o) w = true ∧ ¬ (o = .lfwd ∧ 66 ≤ w.toNat % 256)) := by
  have hop : w.toNat / 2 ^ 24 = (opcodeByte o).toNat := by rw [← opField_toNat, opcodeOf_some h]
  rw [IllegalWord, hop, unusedFieldsZero_iff]
  cases o <;> simp [opcodeByte, opcodeFormat, usesSlen, usesIlen, usesArg] <;> omega

/-- R56 lists exactly the words that are no command. -/
theorem illegalWord_iff_not_decodes (w : Word) : IllegalWord w ↔ ¬ ∃ i, decode w = .ok i := by
  cases h : opcodeOf (opField w) with
  | none => simp [illegalWord_of_reserved h, decode_of_reserved h]
  | some o => rw [illegalWord_iff_of_row h, decodes_iff_of_row h]

/-- Settles O3: the words R56 lists are those the decoder rejects, which raise IllegalCommand on an ungated lane and are
dropped by a gated one, since the exact CLRERR word decodes. -/
theorem illegalWordsRaiseIllegalCommand : Obligations.IllegalWordsRaiseIllegalCommand := by
  unfold Obligations.IllegalWordsRaiseIllegalCommand
  have hzero : decode 0x00000000#32 = .ok .nop := by decide
  refine ⟨fun s k l w hl hw => ?_, fun w hw => ?_, hzero, fun hw => ?_, .inl (by decide)⟩
  · have hnone := (illegalWord_iff_not_decodes w).1 hw
    exact ⟨issue_no_command hl hnone, issue_no_command_gated hl hnone⟩
  · rwa [illegalWord_iff_not_decodes, not_not] at hw
  · exact (illegalWord_iff_not_decodes _).1 hw ⟨.nop, hzero⟩

end Sys2Proof.Spec
end

section
/-!
PROOFS. The layout of the model store (40_seed_materializer.md R68, R69): the entry at a weight index, the index of an
entry, and that each determines the other.
-/

namespace Sys2Proof.Spec

open Sys2Proof.Machine

/-- The entry stored at a weight index: the region of R68 the index lies in, then row and column by division (R69). It is
the inverse of `Entry.index` on the legal entries. -/
def entryAt (g : Nat) : Entry :=
  if g < offH 0 then .e ((g - offE) / 256) ((g - offE) % 256)
  else if g < offC then
    .hd ((g - offH 0) / 1048576) ((g - offH 0) % 1048576 / 1024) ((g - offH 0) % 1024)
  else .c ((g - offC) / 1024) ((g - offC) % 1024)

/-- Every weight index below `NW` has a legal entry. -/
theorem legal_entryAt {g : Nat} (hg : g < Config.modelWeights) : (entryAt g).Legal := by
  unfold entryAt offE offH offC
  unfold Config.modelWeights at hg
  split_ifs <;> simp only [Entry.Legal] <;> omega

/-- The entry at a weight index has that index. -/
theorem index_entryAt (g : Nat) : (entryAt g).index = g := by
  unfold entryAt offE offH offC
  split_ifs <;> simp only [Entry.index] <;> omega

/-- The index of a legal entry determines it: its matrix by the region, its row and column by the remainders. -/
theorem entryAt_index {x : Entry} (hx : x.Legal) : entryAt x.index = x := by
  unfold entryAt offE offH offC
  cases x with
  | e j i =>
    obtain ⟨hj, hi⟩ := hx
    rw [Entry.index, if_pos (by omega), Entry.e.injEq]
    omega
  | hd r j i =>
    obtain ⟨hr, hj, hi⟩ := hx
    rw [Entry.index, if_neg (by omega), if_pos (by omega), Entry.hd.injEq]
    omega
  | c j i =>
    obtain ⟨hj, hi⟩ := hx
    rw [Entry.index, if_neg (by omega), if_neg (by omega), Entry.c.injEq]
    omega

/-- The matrices of legal entries end at `NW`, the last row of `C` being the last (R68). -/
theorem index_lt_of_legal {x : Entry} (hx : x.Legal) : x.index < Config.modelWeights := by
  unfold Config.modelWeights
  cases x <;> simp only [Entry.Legal, Entry.index] at * <;> omega

/-- The views of the store read the entry at its index (R69). -/
theorem views_read_at_index (w : Weights) (r j i : Nat) :
    expansionMatrix w j i = w (Entry.index (.e j i)) ∧ hiddenMatrix w r j i = w (Entry.index (.hd r j i)) ∧
      compressionMatrix w j i = w (Entry.index (.c j i)) := by
  refine ⟨?_, rfl, rfl⟩
  rw [expansionMatrix, offE, Nat.zero_add, Entry.index]

/-- Settles O48: `entryAt` and `Entry.index` are inverse to each other between the indices below `NW` and the legal
entries. -/
theorem matricesTileTheModelStore : Obligations.MatricesTileTheModelStore := by
  unfold Obligations.MatricesTileTheModelStore
  refine ⟨fun g hg => ⟨entryAt g, legal_entryAt hg, index_entryAt g, fun y hy hyg => ?_⟩,
    fun _ => index_lt_of_legal, views_read_at_index, rfl, rfl, rfl, rfl, rfl⟩
  rw [← hyg, entryAt_index hy]

end Sys2Proof.Spec
end

section
/-!
PROOFS. The bit codec, entry by entry (41_bitcodec.md R80, R81): the entry of a code at bit `i` of byte `k`, and the
number each byte of a decoded vector is.
-/

namespace Sys2Proof.Spec

open Sys2Proof.Machine

/-- R80 by byte and bit: the index `8k + i` has quotient `k` and remainder `i` by 8. -/
theorem bitAt_encodeBits_byte_bit (x : Bytes32) {k i : Nat} (hk : k < 32) (hi : i < 8) :
    bitAt (encodeBits x) (8 * k + i) = (byteAt x (31 - k)).getLsbD (7 - i) := by
  have hquot : (8 * k + i) / 8 = k := by omega
  have hrem : (8 * k + i) % 8 = i := by omega
  rw [bitAt_encodeBits x (by omega), hquot, hrem]

/-- R81 by the number of a byte: reversing the bytes twice gives back `k`. -/
theorem byteAt_decodeBits_toNat (v : Bits 256) {k : Nat} (hk : k < 32) :
    (byteAt (decodeBits v) (31 - k)).toNat = ∑ i ∈ Finset.range 8, (bitAt v (8 * k + i)).toNat * 2 ^ (7 - i) := by
  have hrev : 31 - (31 - k) = k := by omega
  rw [byteAt_decodeBits v (by omega), packByte_toNat, hrev]

/-- Settles O49: the byte the statement names is the register byte `encode` reads at that index. -/
theorem encodeReversesBytesAndUnpacksMsbFirst : Obligations.EncodeReversesBytesAndUnpacksMsbFirst := by
  unfold Obligations.EncodeReversesBytesAndUnpacksMsbFirst
  intro x k i hk hi b hb
  have hbyte : byteAt x (31 - k) = b := by
    rw [getElem?_eq_byteAt x (by omega)] at hb
    exact Option.some.inj hb
  rw [getElem?_eq_bitAt _ (by omega), bitAt_encodeBits_byte_bit x hk hi, hbyte]

/-- Settles O50: the byte at `31 - k` is there, and its number is the sum of its eight weighted bits. -/
theorem decodePacksMsbFirstAndReversesBytes : Obligations.DecodePacksMsbFirstAndReversesBytes := by
  unfold Obligations.DecodePacksMsbFirstAndReversesBytes
  intro v k hk
  rw [getElem?_eq_byteAt _ (by omega), Option.map_some, byteAt_decodeBits_toNat v hk]

end Sys2Proof.Spec
end

section
/-!
PROOFS. The forward pipeline (42_forward_pipeline.md): the layer function as a finite sum of unit values (R90 to R93),
the bits each of the 66 layers writes (R94, R97), and the commands SRST and LFWD (R95 to R97).
-/

namespace Sys2Proof.Spec

open Sys2Proof.Machine

/-! ## The layer function (R90, R91) -/

theorem sgn_eq_unitValue (b : Bool) : sgn b = unitValue b := by
  cases b <;> rfl

/-- R91 steps 1 to 3, as a finite sum of unit values. -/
theorem layerSum_eq_sum {inDim : Nat} (outDim : Nat) (m : Matrix) (v : Bits inDim) (j : Nat) :
    layerSum outDim m v j = (∑ i ∈ Finset.range inDim, ternaryValue (m j i) * unitValue (bitAt v i)) +
      if inDim = outDim then unitValue (bitAt v j) else 0 := by
  simp only [layerSum, sumTo_eq, sgn_eq_unitValue]

/-- R91 step 4: an output bit is 1 exactly when its row's sum is strictly positive. -/
theorem bitAt_layerForward_iff {inDim outDim : Nat} (m : Matrix) (v : Bits inDim) {j : Nat} (hj : j < outDim) :
    bitAt (layerForward outDim m v) j = true ↔
      0 < (∑ i ∈ Finset.range inDim, ternaryValue (m j i) * unitValue (bitAt v i)) +
        if inDim = outDim then unitValue (bitAt v j) else 0 := by
  rw [bitAt_layerForward m v hj, positiveSum_iff, layerSum_eq_sum]

/-- The range of a product (R91). -/
theorem ternaryValue_mul_unitValue_mem (x : Ternary) (b : Bool) :
    ternaryValue x * unitValue b ∈ [-1, 0, (1 : Int)] := by
  cases x <;> cases b <;> decide

/-- Settles O53: the output bit at `j` is there, and it is the strict sign of the row's sum. -/
theorem layerFunction : Obligations.LayerFunction := by
  unfold Obligations.LayerFunction
  refine ⟨fun inDim outDim m v j hj => ?_, ternaryValue_mul_unitValue_mem⟩
  rw [getElem?_eq_bitAt _ hj, Option.some.injEq, bitAt_layerForward_iff m v hj]

/-! ## The bits a layer step writes (R94, R97) -/

section LayerBits

variable (w : Weights) (v : Bits 1024) {j : Nat}

/-- Layer 0 reads bits 0 to 255 only and has no residual. -/
theorem bitAt_layerOutput_expansion (hj : j < 1024) :
    bitAt (layerOutput w 0 v) j = true ↔
      0 < ∑ i ∈ Finset.range 256, ternaryValue (w (256 * j + i)) * unitValue (bitAt v i) := by
  have hlow : ∑ i ∈ Finset.range 256, ternaryValue (expansionMatrix w j i) * unitValue (bitAt (lowBits v) i) =
      ∑ i ∈ Finset.range 256, ternaryValue (w (256 * j + i)) * unitValue (bitAt v i) :=
    Finset.sum_congr rfl fun i hi => by
      rw [bitAt_lowBits v (Finset.mem_range.1 hi), (views_read_at_index w 0 j i).1, Entry.index]
  rw [layerOutput, if_pos rfl, padBits_1024, bitAt_layerForward_iff _ _ hj, if_neg (by decide), add_zero, hlow]

/-- Layer `r + 1` is hidden round `r`, which is square and so has the residual. -/
theorem bitAt_layerOutput_hidden {r : Nat} (hr : r < 64) (hj : j < 1024) :
    bitAt (layerOutput w (r + 1) v) j = true ↔
      0 < (∑ i ∈ Finset.range 1024,
        ternaryValue (w (262144 + 1048576 * r + 1024 * j + i)) * unitValue (bitAt v i)) + unitValue (bitAt v j) := by
  rw [layerOutput_hidden w hr, bitAt_layerForward_iff _ v hj, if_pos rfl]
  rfl

/-- Layer 65 writes 256 bits, with no residual, and zeros above them. -/
theorem bitAt_layerOutput_compression :
    bitAt (layerOutput w 65 v) j = true ↔ j < 256 ∧
      0 < ∑ i ∈ Finset.range 1024, ternaryValue (w (67371008 + 1024 * j + i)) * unitValue (bitAt v i) := by
  rw [layerOutput, if_neg (by decide), if_neg (by decide), bitAt_padBits_256]
  by_cases hj : j < 256
  · rw [bitAt_layerForward_iff _ v hj, if_neg (by decide), add_zero, and_iff_right hj]
    rfl
  · simp [bitAt_of_le _ (Nat.le_of_not_lt hj), hj]

end LayerBits

/-! ## LFWD (R96, R97) -/

/-- A layer step writes the buffer that is not current, and swaps. -/
theorem layerStep_eq_ite (w : Weights) (n : Nat) (l : Lane) :
    l.layerStep w n =
      if l.sel then { l with s0 := layerOutput w n l.current, sel := false }
      else { l with s1 := layerOutput w n l.current, sel := true } := by
  cases hsel : l.sel with
  | false => simp [layerStep_false w n hsel, Lane.current, Lane.buffer, hsel]
  | true => simp [layerStep_true w n hsel, Lane.current, Lane.buffer, hsel]

/-- With a model in the store, a legal LFWD is a layer step of the issuing lane and nothing else. -/
theorem exec_lfwd_of_cache {s : State} {l : Lane} {tag : Bytes32} {arg : Byte} (hl : s.lanes[s.cur]? = some l)
    (hc : s.cache = some tag) (harg : arg ≤ 65#8) :
    exec (.lfwd arg) s = .next (withLane s (l.layerStep (modelOf tag) arg.toNat)) := by
  rw [exec_of_lane _ hl, commandOf, lfwdCommand, if_pos ((layerOk_iff arg).2 harg), withModel_some hc]
  rfl

/-- Settles O25: LFWD is a layer step into the other buffer, and the bits that step writes are those of the
layer's kind. -/
theorem lfwdRunsOneLayer : Obligations.LfwdRunsOneLayer := by
  unfold Obligations.LfwdRunsOneLayer
  intro s l tag arg hl hc harg
  refine ⟨layerOutput (modelOf tag) arg.toNat l.current, ?_, fun j hj => ⟨?_, fun r hr hlayer => ?_, ?_⟩⟩
  · rw [exec_lfwd_of_cache hl hc harg, layerStep_eq_ite]
  · rintro rfl
    exact bitAt_layerOutput_expansion _ _ hj
  · rw [hlayer]
    exact bitAt_layerOutput_hidden _ _ hr hj
  · rintro rfl
    exact bitAt_layerOutput_compression _ _

/-! ## SRST (R95) -/

/-- Bit 5 of `STATUS` is `SEL` (R21). -/
theorem statusWord_getLsbD_five (m : Bool) (l : Lane) : (statusWord m l).getLsbD 5 = l.sel := by
  simp only [statusWord, BitVec.getLsbD_append]
  simp

/-- An opcode without operands has one legal word, whose other three fields are zero (R51, R52, R56). -/
theorem illegalWord_of_operandless {op : Nat} {w : Word} (hop : op ∈ [0, 3, 4, 9]) (hw : w.toNat / 2 ^ 24 = op)
    (hne : w.toNat ≠ op * 2 ^ 24) : IllegalWord w := by
  have hfield : w.toNat / 2 ^ 16 % 256 ≠ 0 ∨ w.toNat / 2 ^ 8 % 256 ≠ 0 ∨ w.toNat % 256 ≠ 0 := by omega
  unfold IllegalWord
  simp only [hw, List.mem_cons, List.not_mem_nil, or_false] at hop ⊢
  omega

/-- Settles O24: SRST is `Lane.clearScratch` on the issuing lane, and its word is the only legal one with `op = 4`. -/
theorem srstClearsTheScratchBuffers : Obligations.SrstClearsTheScratchBuffers := by
  unfold Obligations.SrstClearsTheScratchBuffers
  refine ⟨by decide, fun s l hl => ?_, bitAt_zeroBits, fun m l => statusWord_getLsbD_five m _,
    fun s k l w hl herr hop hne => ?_⟩
  · rw [exec_of_lane _ hl]
    rfl
  · have hword : w.toNat ≠ 4 * 2 ^ 24 := fun h => hne (BitVec.eq_of_toNat_eq h)
    have hillegal : IllegalWord w := illegalWord_of_operandless (by decide) hop hword
    exact issue_no_command hl ((illegalWord_iff_not_decodes w).1 hillegal) herr

end Sys2Proof.Spec
end

section
/-!
PROOFS. The whole forward pass (42_forward_pipeline.md R98): the layer steps hand each layer's output on through the two
scratch buffers, so the pipeline leaves the document's function of the input.
-/

namespace Sys2Proof.Machine

/-! ## What a layer step hands on (R94, R97) -/

/-- A layer step changes which buffer is current. -/
@[simp] theorem layerStep_sel (w : Weights) (n : Nat) (l : Lane) : (l.layerStep w n).sel = !l.sel := rfl

/-- The layer's output is the current buffer of the next layer step. -/
@[simp] theorem layerStep_current (w : Weights) (n : Nat) (l : Lane) :
    (l.layerStep w n).current = layerOutput w n l.current := by
  cases h : l.sel with
  | false => simp [layerStep_false w n h, Lane.current, Lane.buffer, h]
  | true => simp [layerStep_true w n h, Lane.current, Lane.buffer, h]

/-- `SEL` after `n` layer steps has flipped `n` times. -/
theorem layerSteps_sel (w : Weights) (n : Nat) (l : Lane) :
    (Lane.layerSteps w n l).sel = xor l.sel n.bodd := by
  induction n with
  | zero => simp [Lane.layerSteps]
  | succ n ih => simp [Lane.layerSteps, ih]

/-- The expansion reads the encoded input. -/
theorem layerOutput_expansion (w : Weights) (x : Bytes32) :
    layerOutput w 0 (padBits (encodeBits x)) = hiddenState w x 0 := by
  rw [layerOutput, if_pos rfl, lowBits_padBits, padBits_1024, hiddenState]

/-- The compression reads the last hidden state. -/
theorem layerOutput_compression (w : Weights) (x : Bytes32) :
    layerOutput w 65 (hiddenState w x 64) = padBits (finalBits w x) := rfl

/-- From the encoded input, the expansion and `n` hidden rounds leave the `n`-th hidden state current. -/
theorem layerSteps_current {w : Weights} {l : Lane} {x : Bytes32} (hl : l.current = padBits (encodeBits x)) {n : Nat}
    (hn : n ≤ 64) : (Lane.layerSteps w (n + 1) l).current = hiddenState w x n := by
  induction n with
  | zero => rw [Lane.layerSteps, layerStep_current, Lane.layerSteps, hl, layerOutput_expansion]
  | succ n ih =>
    rw [Lane.layerSteps, layerStep_current, ih (by omega), layerOutput_hidden w (by omega), hiddenState]

/-! ## The pipeline (R98) -/

/-- The buffers the layer steps of the pipeline start from. -/
theorem clearScratch_encodeInput (l : Lane) :
    l.clearScratch.encodeInput = { l with s0 := padBits (encodeBits l.input), s1 := zeroBits, sel := false } := by
  simp [encodeInput_frame, Lane.clearScratch]

/-- After layer step 65, `S0` holds the final vector and `S1` still the last hidden state, which that step read. -/
theorem layerSteps_layers (w : Weights) (l : Lane) :
    Lane.layerSteps w Config.layers l.clearScratch.encodeInput =
      { l with s0 := padBits (finalBits w l.input), s1 := hiddenState w l.input 64, sel := false } := by
  have hstart : l.clearScratch.encodeInput.current = padBits (encodeBits l.input) := by
    rw [clearScratch_encodeInput]
    rfl
  have hsel := layerSteps_sel w 65 l.clearScratch.encodeInput
  have hcurrent := layerSteps_current (w := w) hstart (le_refl 64)
  obtain ⟨a, b, c, hframe⟩ := layerSteps_frame w 65 l.clearScratch.encodeInput
  rw [hframe] at hsel hcurrent
  obtain rfl : c = true := hsel.trans (by rw [clearScratch_encodeInput]; rfl)
  obtain rfl : b = hiddenState w l.input 64 := hcurrent
  rw [show Config.layers = 65 + 1 from rfl, Lane.layerSteps, hframe, layerStep_true w 65 rfl, layerOutput_compression,
    clearScratch_encodeInput]

/-- The pipeline leaves TensHash of `INPUT` in `DIGEST`, and the scratch as R98 says. -/
theorem pipeline_eq (w : Weights) (l : Lane) :
    l.pipeline w =
      { l with
        digest := tensHash w l.input
        dvalid := true
        sel := false
        s0 := padBits (finalBits w l.input)
        s1 := hiddenState w l.input 64 } := by
  rw [Lane.pipeline, layerSteps_layers, decodeCurrent_frame, tensHash]
  simp [Lane.current, Lane.buffer]

@[simp] theorem pipeline_digest (w : Weights) (l : Lane) : (l.pipeline w).digest = tensHash w l.input := by
  rw [pipeline_eq]

@[simp] theorem pipeline_dvalid (w : Weights) (l : Lane) : (l.pipeline w).dvalid = true := by
  rw [pipeline_eq]

@[simp] theorem pipeline_hit (w : Weights) (l : Lane) : (l.pipeline w).hit = l.hit := by
  rw [pipeline_eq]

/-- The pipeline clears the scratch itself, so it does not matter whether a rebuild did before. -/
theorem pipeline_clearScratch (w : Weights) (l : Lane) : l.clearScratch.pipeline w = l.pipeline w := rfl

end Sys2Proof.Machine
end

section
/-!
PROOFS. The model cache (43_precompute_cache.md): the commands that look up or rebuild when they end without an error
(R73, R105, R116, R117), what any command leaves in the cache entry (R54, R109), cache transparency (R110), and two
requests for one new model (R111).
-/

namespace Sys2Proof.Machine

/-! ## The commands on a lane (R73, R105, R116, R117) -/

/-- The lane after a HASH that ends without an error, by whether its lookup hit (R116). -/
def Lane.hashed (l : Lane) (hit : Bool) : Lane := (l.setHit hit).pipeline (modelOf l.seed)

@[simp] theorem Lane.hashed_digest (l : Lane) (hit : Bool) :
    (l.hashed hit).digest = tensHash (modelOf l.seed) l.input :=
  pipeline_digest _ _

@[simp] theorem Lane.hashed_dvalid (l : Lane) (hit : Bool) : (l.hashed hit).dvalid = true :=
  pipeline_dvalid _ _

@[simp] theorem Lane.hashed_hit (l : Lane) (hit : Bool) : (l.hashed hit).hit = hit :=
  pipeline_hit _ _

/-- HASH on a hit or with the grant: either way the model of the seed is in the store when the pipeline runs, and `HIT`
is all that tells the two apart. -/
theorem commandOf_hash_of_model {g : Bool} {v : View} (h : v.cache = some v.lane.seed ∨ g = true) :
    commandOf (.hash 32#8 32#8) g v =
      { cache := some v.lane.seed, lane := v.lane.hashed (decide (v.cache = some v.lane.seed)) } := by
  rw [commandOf, hashCommand, if_pos ((lengthOk_iff _).2 rfl), if_pos ((lengthOk_iff _).2 rfl)]
  by_cases hc : v.cache = some v.lane.seed
  · rw [lookupModel_hit hc, Progress.goesOn_andThen, hc, withModel_some rfl, decide_eq_true rfl]
    rfl
  · obtain rfl := h.resolve_left hc
    rw [lookupModel_miss hc, rebuild_granted, Progress.goesOn_andThen, withModel_some rfl, pipeline_clearScratch,
      decide_eq_false hc]
    rfl

section OnLane

variable {s : State} {l : Lane} (hl : s.lanes[s.cur]? = some l)
include hl

theorem exec_mat_granted (hg : s.grant = true) :
    exec (.mat 32#8) s = .next (s.withView { cache := some l.seed, lane := l.clearScratch }) := by
  rw [exec_of_lane _ hl, commandOf, matCommand, if_pos ((lengthOk_iff _).2 rfl), hg, rebuild_granted,
    Progress.goesOn_view]

theorem exec_lookup_eq :
    exec (.lookup 32#8) s =
      .next (s.withView (lookupModel s.grant l.seed { cache := s.cache, lane := l }).view) := by
  rw [exec_of_lane _ hl, commandOf, lookupCommand, if_pos ((lengthOk_iff _).2 rfl)]

theorem exec_hash_of_model (h : s.cache = some l.seed ∨ s.grant = true) :
    exec (.hash 32#8 32#8) s =
      .next (s.withView { cache := some l.seed, lane := l.hashed (decide (s.cache = some l.seed)) }) := by
  rw [exec_of_lane _ hl, commandOf_hash_of_model h]

theorem exec_hashx_of_cache {tag : Bytes32} (hc : s.cache = some tag) :
    exec (.hashx 32#8) s = .next (s.withView { cache := some tag, lane := l.pipeline (modelOf tag) }) := by
  rw [exec_of_lane _ hl, commandOf, hashxCommand, if_pos ((lengthOk_iff _).2 rfl), withModel_some hc, hc]

end OnLane

/-! ## What a command leaves in the cache entry (R54, R109) -/

/-- `c'` is what a command with the grant `g` on a lane with the seed `seed` may leave of the cache entry `c`: the entry
as it was, or what `Rebuild` makes of it (R54, R72). -/
def KeptOrRebuilt (g : Bool) (seed : Bytes32) (c c' : Option Bytes32) : Prop :=
  c' = c ∨ (g = false ∧ c' = none) ∨ (g = true ∧ c' = some seed)

theorem rebuild_keptOrRebuilt (g : Bool) (seed : Bytes32) (c : Option Bytes32) (v : View) :
    KeptOrRebuilt g seed c (rebuild g seed v).view.cache := by
  cases g with
  | false => exact .inr (.inl ⟨rfl, rfl⟩)
  | true => exact .inr (.inr ⟨rfl, rfl⟩)

theorem lookupModel_keptOrRebuilt (g : Bool) (seed : Bytes32) (v : View) :
    KeptOrRebuilt g seed v.cache (lookupModel g seed v).view.cache := by
  by_cases hc : v.cache = some seed
  · rw [lookupModel_hit hc]
    exact .inl rfl
  · rw [lookupModel_miss hc]
    exact rebuild_keptOrRebuilt g seed v.cache _

/-- What follows a procedure under the model in the store does not touch the cache entry. -/
theorem andThen_withModel_cache (p : Progress) (f : Weights → Lane → Lane) :
    (p.andThen fun u => u.withModel f).cache = p.view.cache := by
  cases p with
  | goesOn v => exact withModel_cache v f
  | ended v => rfl

end Sys2Proof.Machine

namespace Sys2Proof.Spec

open Sys2Proof.Machine

/-- A command that never rebuilds leaves the cache entry: it works on the lane, runs under the model in the store, or
raises an error that is not AllocationFailure. -/
theorem commandOf_cache_of_neverRebuilds {i : Instr} (hi : NeverRebuilds i) (g : Bool) (v : View) :
    (commandOf i g v).cache = v.cache := by
  cases i with
  | mat slen => exact absurd rfl (hi slen 0#8).1
  | lookup slen => exact absurd rfl (hi slen 0#8).2.1
  | hash slen ilen => exact absurd rfl (hi slen ilen).2.2
  | nop => rfl
  | dec | srst | clrerr => exact View.onLane_cache _ _
  | enc ilen =>
    rw [commandOf, encCommand]
    split <;> rfl
  | lfwd arg =>
    rw [commandOf, lfwdCommand]
    split
    · exact withModel_cache v _
    · rfl
  | hashx ilen =>
    rw [commandOf, hashxCommand]
    split
    · exact withModel_cache v _
    · rfl

/-- Every command keeps the cache entry or rebuilds it. -/
theorem commandOf_keptOrRebuilt (i : Instr) (g : Bool) (v : View) :
    KeptOrRebuilt g v.lane.seed v.cache (commandOf i g v).cache := by
  cases i with
  | mat slen =>
    rw [commandOf, matCommand]
    split
    · exact rebuild_keptOrRebuilt g v.lane.seed v.cache v
    · exact .inl rfl
  | lookup slen =>
    rw [commandOf, lookupCommand]
    split
    · exact lookupModel_keptOrRebuilt g v.lane.seed v
    · exact .inl rfl
  | hash slen ilen =>
    rw [commandOf, hashCommand]
    split
    · split
      · rw [andThen_withModel_cache]
        exact lookupModel_keptOrRebuilt g v.lane.seed v
      · exact .inl rfl
    · exact .inl rfl
  | nop | enc | dec | srst | lfwd | hashx | clrerr =>
    refine .inl (commandOf_cache_of_neverRebuilds ?_ g v)
    exact fun _ _ => ⟨nofun, nofun, nofun⟩

/-- Settles O34: the cache entry a command leaves is that of its view command, which keeps or rebuilds it. -/
theorem sharedStateIsWrittenOnlyByARebuild : Obligations.SharedStateIsWrittenOnlyByARebuild := by
  unfold Obligations.SharedStateIsWrittenOnlyByARebuild
  intro i s t l h hl
  rw [exec_of_lane i hl] at h
  obtain rfl := Host.Outcome.next.inj h
  exact ⟨fun hi => commandOf_cache_of_neverRebuilds hi _ _, commandOf_keptOrRebuilt i _ _⟩

/-! ## LOOKUP (R105) -/

/-- Settles O28: a hit, a miss whose rebuild is granted, and a miss whose rebuild is refused. -/
theorem lookupHitsOrRebuilds : Obligations.LookupHitsOrRebuilds := by
  unfold Obligations.LookupHitsOrRebuilds
  refine fun s l hl => ⟨fun hc => ?_, fun hc hg => ?_, fun hc hg => ?_⟩
  · rw [exec_lookup_eq hl, lookupModel_hit hc]
    rfl
  · rw [exec_lookup_eq hl, lookupModel_miss hc, hg]
    rfl
  · rw [exec_lookup_eq hl, lookupModel_miss hc, hg]
    rfl

/-! ## Cache transparency (R110) -/

/-- Settles O39: HASH runs the pipeline under the model of the seed whether it hit or rebuilt, and so does HASHX after a
MAT has put that model in the store; the digest is TensHash of `INPUT` in both. -/
theorem cacheTransparency : Obligations.CacheTransparency := by
  unfold Obligations.CacheTransparency
  intro s l hl hg
  have hmat := withView_lane hl { cache := some l.seed, lane := l.clearScratch }
  refine ⟨_, _, _, _, _, exec_hash_of_model hl (.inr hg), exec_mat_granted hl hg, exec_hashx_of_cache hmat rfl,
    withView_lane hl _, withView_lane hmat _, ?_, rfl⟩
  rw [Lane.hashed_digest, pipeline_digest, Lane.clearScratch_input]

/-! ## Commands of several lanes (R46, R111) -/

section Step

variable {s : State} {k : Nat} {l : Lane} {w : Word} {g : Bool} {rest : List HostInput}
  (hp : CommandPending s k w g rest) (hbase : s.base % 256 = 0) (hl : s.lanes[k]? = some l)
include hp hbase hl

/-- A pending command word reaches its lane (R38). -/
theorem step_issues : step s = issue k w (taken s g rest) := by
  have hwrite : s.pending = { move := .write (s.base + 256 * k + 0) 4 w, grant := g } :: rest := hp
  have haccepted : ¬ RefusedAccess (s.base + 256 * k + 0) 0 4 := by
    rw [not_refusedAccess_iff]
    omega
  exact step_write_cmd hwrite hbase hl (by decide) haccepted (by decide)

/-- On a lane without a latched error a word that decodes runs as its command (R53 step 5). -/
theorem step_runs_command (herr : l.err = .none) {i : Instr} (hw : decode w = .ok i) :
    step s = exec i { taken s g rest with cur := k } := by
  have htaken : (taken s g rest).lanes[k]? = some l := hl
  rw [step_issues hp hbase hl]
  simp only [issue, htaken, if_pos herr, runWord, hw]

end Step

/-- A pending HASH 32, 32 that hits or has the grant: the model of the seed is in the store afterwards, the lane is
hashed, and the other lanes and the host's later moves wait. -/
theorem step_hash {s : State} {k : Nat} {l : Lane} {g : Bool} {rest : List HostInput}
    (hp : CommandPending s k 0x07202000#32 g rest) (hbase : s.base % 256 = 0) (hl : s.lanes[k]? = some l)
    (herr : l.err = .none) (h : s.cache = some l.seed ∨ g = true) :
    ∃ t, step s = .next t ∧ t.base = s.base ∧ t.pending = rest ∧ t.cache = some l.seed ∧
      t.lanes[k]? = some (l.hashed (decide (s.cache = some l.seed))) ∧ ∀ j ≠ k, t.lanes[j]? = s.lanes[j]? := by
  have hissuing : ({ taken s g rest with cur := k } : State).lanes[k]? = some l := hl
  refine ⟨_, (step_runs_command hp hbase hl herr (i := .hash 32#8 32#8) (by decide)).trans
    (exec_hash_of_model hissuing h), rfl, rfl, rfl, withView_lane hissuing _, fun j hj => ?_⟩
  exact withView_other (s := { taken s g rest with cur := k }) hj _

/-- Settles O41: the first HASH misses and leaves the model of the common seed in the store, where the second, on a lane
the first did not touch, finds it. -/
theorem concurrentRequestsBuildOneModel : Obligations.ConcurrentRequestsBuildOneModel := by
  unfold Obligations.ConcurrentRequestsBuildOneModel
  intro s a b la lb rest hbase hab hla hlb hea heb hseed hnew
  obtain ⟨t, hstep, htbase, htpending, htcache, hta, htother⟩ :=
    step_hash (s := { s with
      pending := commandInput s a 0x07202000#32 true :: commandInput s b 0x07202000#32 true :: rest })
      rfl hbase hla hea (.inr rfl)
  have hpending : CommandPending t b 0x07202000#32 true rest := by
    rw [CommandPending, htpending, htbase]
    rfl
  obtain ⟨u, hstep', -, -, hucache, hub, huother⟩ :=
    step_hash hpending (htbase ▸ hbase) ((htother b hab.symm).trans hlb) heb (.inr rfl)
  refine ⟨u, la.hashed false, lb.hashed true, ?_, ?_, ?_, ?_, la.hashed_hit _, lb.hashed_hit _, la.hashed_digest _, ?_,
    la.hashed_dvalid _, lb.hashed_dvalid _⟩
  · rw [run_succ 1 hstep, run_succ 0 hstep', run_zero]
  · rw [hucache, hseed]
  · rw [huother a hab, hta, decide_eq_false hnew]
  · rw [hub, htcache, hseed, decide_eq_true rfl]
  · rw [hseed, lb.hashed_digest]

end Sys2Proof.Spec
end

section
/-!
PROOFS. What HASH and HASHX compute (44_hash_facade.md R116, R117, R119): the document's function of `INPUT` under the
model the pipeline runs with.
-/

namespace Sys2Proof.Machine

/-- A lane after HASH holds TensHash of its input, and the scratch the pipeline leaves (R98, R116). -/
theorem Lane.hashed_eq (l : Lane) (hit : Bool) :
    l.hashed hit =
      { l with
        digest := tensHash (materialize Config.ks l.seed) l.input
        dvalid := true
        hit := hit
        sel := false
        s0 := padBits (finalBits (materialize Config.ks l.seed) l.input)
        s1 := hiddenState (materialize Config.ks l.seed) l.input 64 } := by
  rw [Lane.hashed, pipeline_eq, modelOf]
  rfl

end Sys2Proof.Machine

namespace Sys2Proof.Spec

open Sys2Proof.Machine

/-- A view that keeps the cache entry puts back its lane only. -/
theorem withView_eq_withLane {s : State} {v : View} (h : v.cache = s.cache) : s.withView v = withLane s v.lane := by
  rw [State.withView, h, withLane]

/-- Settles O29: on a hit or with the grant, HASH installs the model of the seed and hashes the lane. -/
theorem hashComputesTensHash : Obligations.HashComputesTensHash := by
  unfold Obligations.HashComputesTensHash
  intro s l hl h
  rw [exec_hash_of_model hl h, Lane.hashed_eq]
  rfl

/-- Settles O30: HASHX is the pipeline under the model in the store, and leaves the cache entry. -/
theorem hashxComputesTensHashUnderThePresentModel : Obligations.HashxComputesTensHashUnderThePresentModel := by
  unfold Obligations.HashxComputesTensHashUnderThePresentModel
  intro s l tag hl hc
  rw [exec_hashx_of_cache hl hc, withView_eq_withLane hc.symm, pipeline_eq, modelOf]

/-- Settles O38: each of the two digests is TensHash of the lane's `INPUT` under the model of its `SEED`. -/
theorem hashDigestDependsOnlyOnSeedAndInput : Obligations.HashDigestDependsOnlyOnSeedAndInput := by
  unfold Obligations.HashDigestDependsOnlyOnSeedAndInput
  intro s s' l l' hl hl' hseed hinput hg hg'
  refine ⟨_, _, _, _, exec_hash_of_model hl (.inr hg), exec_hash_of_model hl' (.inr hg'), withView_lane hl _,
    withView_lane hl' _, ?_, l.hashed_dvalid _, l'.hashed_dvalid _⟩
  rw [Lane.hashed_digest, Lane.hashed_digest, hseed, hinput]

end Sys2Proof.Spec
end

section
/-!
PROOFS. The error a command leaves (60_exceptions.md R130, R135): with the grant it is decided by the command word, by
whether the store holds a model, and by the error before, and by no byte of the lane (R119).
-/

namespace Sys2Proof.Machine

/-- The error a command with the grant leaves, from `VALID` and the error before it. -/
def errGranted : Instr → Bool → ErrCode → ErrCode
  | .nop, _, e | .dec, _, e | .srst, _, e => e
  | .clrerr, _, _ => .none
  | .mat slen, _, e | .lookup slen, _, e => if lengthOk slen then e else .invalidSeedLength
  | .enc ilen, _, e => if lengthOk ilen then e else .invalidInputLength
  | .hash slen ilen, _, e =>
    if lengthOk slen then if lengthOk ilen then e else .invalidInputLength else .invalidSeedLength
  | .lfwd arg, valid, e => if layerOk arg then if valid then e else .noModel else .illegalCommand
  | .hashx ilen, valid, e => if lengthOk ilen then if valid then e else .noModel else .invalidInputLength

@[simp] theorem layerStep_err (w : Weights) (n : Nat) (l : Lane) : (l.layerStep w n).err = l.err := by
  obtain ⟨a, b, c, h⟩ := layerStep_frame w n l
  rw [h]

@[simp] theorem pipeline_err (w : Weights) (l : Lane) : (l.pipeline w).err = l.err := by
  rw [pipeline_eq]

/-- Running under the model in the store raises NoModel when there is none, and nothing else. -/
theorem withModel_err (v : View) {f : Weights → Lane → Lane} (hf : ∀ w l, (f w l).err = l.err) :
    (v.withModel f).lane.err = if v.cache.isSome then v.lane.err else .noModel := by
  cases h : v.cache with
  | none => rw [withModel_none h]; rfl
  | some tag => rw [withModel_some h]; exact hf _ _

/-- With the grant a lookup goes on, whether it hits or rebuilds, with the model of the seed in the store. -/
theorem lookupModel_granted (seed : Bytes32) (v : View) :
    ∃ u, lookupModel true seed v = .goesOn u ∧ u.cache = some seed ∧ u.lane.err = v.lane.err := by
  by_cases hc : v.cache = some seed
  · exact ⟨_, lookupModel_hit hc, hc, rfl⟩
  · exact ⟨_, (lookupModel_miss hc).trans (rebuild_granted _ _), rfl, rfl⟩

/-- A command's error, read off its own tests in the order of R135. -/
theorem commandOf_err (i : Instr) (v : View) :
    (commandOf i true v).lane.err = errGranted i v.cache.isSome v.lane.err := by
  obtain ⟨u, hu, hcache, herr⟩ := lookupModel_granted v.lane.seed v
  cases i with
  | nop | clrerr => rfl
  | dec => exact Lane.setDigest_err _ _
  | srst => exact Lane.clearScratch_err _
  | mat slen =>
    rw [commandOf, matCommand, errGranted]
    split <;> rfl
  | enc ilen =>
    rw [commandOf, encCommand, errGranted]
    split
    · exact Lane.setBuffer_err _ _ _
    · rfl
  | lookup slen =>
    rw [commandOf, lookupCommand, errGranted, hu]
    split
    · exact herr
    · rfl
  | lfwd arg =>
    rw [commandOf, lfwdCommand, errGranted]
    split
    · exact withModel_err v fun w l => layerStep_err w _ l
    · rfl
  | hashx ilen =>
    rw [commandOf, hashxCommand, errGranted]
    split
    · exact withModel_err v pipeline_err
    · rfl
  | hash slen ilen =>
    rw [commandOf, hashCommand, errGranted, hu, Progress.goesOn_andThen]
    split
    · split
      · rw [withModel_err u pipeline_err, hcache]
        exact herr
      · rfl
    · rfl

end Sys2Proof.Machine

namespace Sys2Proof.Spec

open Sys2Proof.Machine

/-- Settles O37: the two lanes differ in `SEED` and `INPUT` only, and the error a granted command leaves is a function
of the command, `VALID` and the error before. -/
theorem errorsAreNeverDataDependent : Obligations.ErrorsAreNeverDataDependent := by
  unfold Obligations.ErrorsAreNeverDataDependent
  intro i s l x y hl hg
  have hl' := withView_lane hl { cache := s.cache, lane := { l with seed := x, input := y } }
  refine ⟨_, _, _, _, exec_of_lane i hl, exec_of_lane i hl', withView_lane hl _, withView_lane hl' _, ?_⟩
  have hg' : (withLane s { l with seed := x, input := y }).grant = true := hg
  rw [hg, hg', commandOf_err, commandOf_err]
  rfl

/-- Settles O26: a legal LFWD and HASHX 32 both run under the model in the store, and there is none. -/
theorem layersWithoutAModelRaiseNoModel : Obligations.LayersWithoutAModelRaiseNoModel := by
  unfold Obligations.LayersWithoutAModelRaiseNoModel
  intro s l arg hl hc harg i hi
  have hraise : commandOf i s.grant { cache := s.cache, lane := l } =
      View.raise { cache := s.cache, lane := l } .noModel := by
    simp only [List.mem_cons, List.not_mem_nil, or_false] at hi
    rcases hi with rfl | rfl
    · rw [commandOf, lfwdCommand, if_pos ((layerOk_iff arg).2 harg), withModel_none hc]
    · rw [commandOf, hashxCommand, if_pos ((lengthOk_iff _).2 rfl), withModel_none hc]
  rw [exec_of_lane i hl, hraise]
  rfl

end Sys2Proof.Spec
end

section
/-!
PROOFS. The housekeeping commands NOP and CLRERR (44_hash_facade.md R120, R121), as commands and as words, with and
without a latched error (60_exceptions.md R134, R136).
-/

namespace Sys2Proof.Machine

/-- The view of a lane put back unchanged is the state. -/
theorem withView_self {s : State} {l : Lane} (hl : s.lanes[s.cur]? = some l) :
    s.withView { cache := s.cache, lane := l } = s := by
  rw [State.withView, lanes_set_self hl]

theorem exec_nop {s : State} {l : Lane} (hl : s.lanes[s.cur]? = some l) : exec .nop s = .next s := by
  rw [exec_of_lane _ hl, commandOf, withView_self hl]

/-- Bits 2:0 of `STATUS` are `ERR` (R21). -/
theorem statusWord_err_bits (m : Bool) (l : Lane) : (statusWord m l).extractLsb' 0 3 = errBits l.err := by
  rw [statusWord, BitVec.extractLsb'_append_eq_right]

section Gated

variable {s : State} {k : Nat} {l : Lane} (hl : s.lanes[k]? = some l) (herr : l.err ≠ .none)
include hl herr

/-- A gated lane drops every word but CLRERR (R134). -/
theorem issue_gated_dropped {w : Word} (hw : w ≠ clrErrWord) : issue k w s = .next s := by
  simp only [issue, hl, if_neg herr, if_neg hw]

/-- A gated lane takes the CLRERR word (R134, R136). -/
theorem issue_gated_clrerr :
    issue k clrErrWord s = .next { s with cur := k, lanes := s.lanes.set k l.clearError } := by
  simp only [issue, hl, if_neg herr, if_true]
  exact exec_of_lane (s := { s with cur := k }) .clrerr hl

end Gated

end Sys2Proof.Machine

namespace Sys2Proof.Spec

open Sys2Proof.Machine

/-- Settles O16: NOP's view command is the identity, its word on a gated lane is dropped, and it is the only legal word
with `op = 0`. -/
theorem nopDoesNothing : Obligations.NopDoesNothing := by
  unfold Obligations.NopDoesNothing
  refine ⟨by decide, fun s hcur => exec_nop (List.getElem?_eq_getElem hcur), fun s k g rest hp hbase hk => ?_,
    fun s k l w hl herr hop hne => ?_⟩
  · have hl : s.lanes[k]? = some s.lanes[k] := List.getElem?_eq_getElem hk
    by_cases herr : s.lanes[k].err = .none
    · rw [step_runs_command hp hbase hl herr (i := .nop) (by decide),
        exec_nop (s := { taken s g rest with cur := k }) hl]
      exact ⟨_, rfl, rfl, rfl⟩
    · rw [step_issues hp hbase hl, issue_gated_dropped (s := taken s g rest) hl herr (by decide)]
      exact ⟨_, rfl, rfl, rfl⟩
  · have hword : w.toNat ≠ 0 * 2 ^ 24 := fun h => hne (BitVec.eq_of_toNat_eq h)
    have hillegal : IllegalWord w := illegalWord_of_operandless (by decide) hop hword
    exact issue_no_command hl ((illegalWord_iff_not_decodes w).1 hillegal) herr

/-- Settles O31: CLRERR is `Lane.clearError` on the issuing lane, which is the lane itself when `ERR = 0`, and its word
is the only legal one with `op = 9`. -/
theorem clrerrClearsTheError : Obligations.ClrerrClearsTheError := by
  unfold Obligations.ClrerrClearsTheError
  refine ⟨by decide, fun s l hl => ?_, fun m l => statusWord_err_bits m _,
    fun s k l hl herr => issue_gated_clrerr hl herr, fun s k l w hl hop hne => ?_⟩
  · have hexec : exec .clrerr s = .next (withLane s l.clearError) := exec_of_lane _ hl
    refine ⟨hexec, fun herr => ?_⟩
    have hself : l.clearError = l := by rw [Lane.clearError, ← herr]
    rw [hexec, hself, withLane, lanes_set_self hl]
  · have hword : w.toNat ≠ 9 * 2 ^ 24 := fun h => hne (BitVec.eq_of_toNat_eq h)
    have hillegal : IllegalWord w := illegalWord_of_operandless (by decide) hop hword
    have hnone := (illegalWord_iff_not_decodes w).1 hillegal
    exact ⟨issue_no_command hl hnone, issue_no_command_gated hl hnone⟩

end Sys2Proof.Spec
end

section
/-!
PROOFS. HASH and HASHX against their primitive forms (30_encoding.md R59; 44_hash_facade.md R118): the command words
decode to their commands, a run of commands that raise nothing is their view commands one after another, and the view
commands of the primitive forms compose to those of HASH and HASHX.
-/

namespace Sys2Proof

/-! ## The command words (R52, R58) -/

theorem encodedRow (i : Instr) : Laws.EncodedRow.Statement i := by
  cases i with
  | nop => exact Laws.EncodedRow.nop
  | mat slen => exact Laws.EncodedRow.mat slen
  | enc ilen => exact Laws.EncodedRow.enc ilen
  | dec => exact Laws.EncodedRow.dec
  | srst => exact Laws.EncodedRow.srst
  | lfwd arg => exact Laws.EncodedRow.lfwd arg
  | lookup slen => exact Laws.EncodedRow.lookup slen
  | hash slen ilen => exact Laws.EncodedRow.hash slen ilen
  | hashx ilen => exact Laws.EncodedRow.hashx ilen
  | clrerr => exact Laws.EncodedRow.clrerr

/-- The encoded fields that a command's format uses are its operands (R55). -/
theorem instrOf_encode (i : Instr) :
    instrOf (Laws.EncodedRow.rowOf i) (slenField (encode i)) (ilenField (encode i)) (argField (encode i)) = i := by
  cases i <;>
    simp [Laws.EncodedRow.rowOf, instrOf, encode, slenField_assembleWord, ilenField_assembleWord,
      argField_assembleWord]

/-- A well-formed LFWD passes the test of R53 step 4, and no other command meets it. -/
theorem not_layerOutOfRange {i : Instr} (h : i.WellFormed) :
    ¬ (Laws.EncodedRow.rowOf i = .lfwd ∧ lastLayer < argField (encode i)) := by
  rintro ⟨hrow, harg⟩
  cases i with
  | lfwd arg =>
    rw [encode, argField_assembleWord] at harg
    exact absurd (of_decide_eq_true h) (BitVec.not_le.2 harg)
  | nop | mat | enc | dec | srst | lookup | hash | hashx | clrerr => cases hrow

/-- The word of a well-formed command decodes to the command. -/
theorem decode_encode {i : Instr} (h : i.WellFormed) : decode (encode i) = .ok i := by
  obtain ⟨hrow, hfields⟩ := encodedRow i
  simp only [decode, hrow, hfields, if_true, if_neg (not_layerOutOfRange h), instrOf_encode]

end Sys2Proof

namespace Sys2Proof.Machine

/-! ## Several commands on one view -/

/-- The view that commands leave, run one after another with the grant and no gate between them. -/
def commandsOf (is : List Instr) (v : View) : View := is.foldl (fun u i => commandOf i true u) v

@[simp] theorem commandsOf_nil (v : View) : commandsOf [] v = v := rfl

@[simp] theorem commandsOf_cons (i : Instr) (is : List Instr) (v : View) :
    commandsOf (i :: is) v = commandsOf is (commandOf i true v) := rfl

theorem commandsOf_append (is js : List Instr) (v : View) :
    commandsOf (is ++ js) v = commandsOf js (commandsOf is v) :=
  List.foldl_append

/-- HASH is LOOKUP followed by HASHX, when the lookup is granted (R116, R118). -/
theorem commandOf_hash_eq_lookup_hashx (v : View) :
    commandOf (.hash 32#8 32#8) true v = commandOf (.hashx 32#8) true (commandOf (.lookup 32#8) true v) := by
  obtain ⟨u, hu, -, -⟩ := lookupModel_granted v.lane.seed v
  simp only [commandOf, hashCommand, hashxCommand, lookupCommand, if_pos ((lengthOk_iff 32#8).2 rfl), hu,
    Progress.goesOn_andThen, Progress.goesOn_view]

/-- LOOKUP 32 with the grant puts a model in the store. -/
theorem commandOf_lookup_cache (v : View) : (commandOf (.lookup 32#8) true v).cache = some v.lane.seed := by
  obtain ⟨u, hu, hcache, -⟩ := lookupModel_granted v.lane.seed v
  rw [commandOf, lookupCommand, if_pos ((lengthOk_iff _).2 rfl), hu]
  exact hcache

/-- The first `n` commands of `FWDALL` are the layer steps `0, ..., n - 1` (R59, R98). -/
theorem commandsOf_lfwd_range (tag : Bytes32) (l : Lane) {n : Nat} (hn : n ≤ 66) :
    commandsOf ((List.range n).map fun k => .lfwd (BitVec.ofNat 8 k)) { cache := some tag, lane := l } =
      { cache := some tag, lane := Lane.layerSteps (modelOf tag) n l } := by
  induction n with
  | zero => rfl
  | succ n ih =>
    have hnat : (BitVec.ofNat 8 n).toNat = n := by rw [BitVec.toNat_ofNat]; omega
    have hlayer : layerOk (BitVec.ofNat 8 n) = true := by
      rw [layerOk_iff, BitVec.le_def, hnat]
      exact Nat.le_of_lt_succ hn
    rw [List.range_succ, List.map_append, commandsOf_append, ih (by omega), List.map_singleton, commandsOf_cons,
      commandsOf_nil, commandOf, lfwdCommand, if_pos hlayer, withModel_some rfl, hnat, Lane.layerSteps]

/-- With a model in the store, the primitive form of HASHX is the pipeline (R98, R117). -/
theorem commandsOf_hashxPrimitives {v : View} (hv : v.cache.isSome) :
    commandsOf hashxPrimitives v = commandOf (.hashx 32#8) true v := by
  obtain ⟨tag, hc⟩ := Option.isSome_iff_exists.1 hv
  obtain ⟨c, l⟩ := v
  obtain rfl : c = some tag := hc
  have hstart : commandsOf [.srst, .enc Config.operandLength] { cache := some tag, lane := l } =
      { cache := some tag, lane := l.clearScratch.encodeInput } := rfl
  have hlayers := commandsOf_lfwd_range tag l.clearScratch.encodeInput (le_refl 66)
  rw [hashxPrimitives, commandsOf_append, commandsOf_append, hstart, fwdAll, hlayers, commandOf, hashxCommand,
    if_pos ((lengthOk_iff _).2 rfl), withModel_some rfl, Lane.pipeline]
  rfl

end Sys2Proof.Machine

namespace Sys2Proof.Spec

open Sys2Proof.Machine

/-! ## Runs of granted commands on one lane -/

/-- The state between the commands issued on lane `k` with the grant: `v` is its view, `rest` what is pending. -/
def issued (s : State) (k : Nat) (rest : List HostInput) (v : View) : State :=
  { taken s true rest with cur := k }.withView v

/-- Each command of lane `k` overwrites the view of the one before. -/
@[simp] theorem issued_issued (s : State) (k : Nat) (rest rest' : List HostInput) (u v : View) :
    issued (issued s k rest' u) k rest v = issued s k rest v := by
  simp [issued, taken, State.withView, List.set_set]

/-- With the grant no command takes the model out of the store. -/
theorem commandOf_cache_isSome (i : Instr) {v : View} (hv : v.cache.isSome) :
    (commandOf i true v).cache.isSome := by
  obtain hkept | ⟨hg, -⟩ | ⟨-, hnew⟩ := commandOf_keptOrRebuilt i true v
  · rwa [hkept]
  · cases hg
  · rw [hnew]
    rfl

/-- A command that raises nothing where there is a model and no latched error (R130). -/
def RaisesNothing (i : Instr) : Prop := i.WellFormed ∧ errGranted i true .none = .none

section Run

variable {s : State} {k : Nat} {l : Lane} {rest : List HostInput} (hbase : s.base % 256 = 0)
include hbase

/-- A step that issues a well-formed command to an ungated lane is its view command on that lane (R38, R53). -/
theorem step_command {i : Instr} (hp : s.pending = commandInput s k (encode i) true :: rest)
    (hl : s.lanes[k]? = some l) (herr : l.err = .none) (hi : i.WellFormed) :
    step s = .next (issued s k rest (commandOf i true { cache := s.cache, lane := l })) :=
  (step_runs_command hp hbase hl herr (decode_encode hi)).trans
    (exec_of_lane (s := { taken s true rest with cur := k }) i hl)

/-- From a view with a model and no error, commands that raise nothing run one after another. -/
theorem run_commands (hk : k < s.lanes.length) {is : List Instr} (his : ∀ i ∈ is, RaisesNothing i) {v : View}
    (hcache : v.cache.isSome) (herr : v.lane.err = .none) :
    Sys2Proof.core.run is.length (issued s k (commandInputs s k true is ++ rest) v) =
      .next (issued s k rest (commandsOf is v)) := by
  induction is generalizing v with
  | nil => rfl
  | cons i is ih =>
    obtain ⟨⟨hwf, hraise⟩, his⟩ := List.forall_mem_cons.1 his
    have hlane : (issued s k (commandInputs s k true (i :: is) ++ rest) v).lanes[k]? = some v.lane := by
      simp [issued, taken, hk]
    have herr' : (commandOf i true v).lane.err = .none := by rw [commandOf_err, hcache, herr, hraise]
    have hstep := step_command (s := issued s k (commandInputs s k true (i :: is) ++ rest) v)
      (rest := commandInputs s k true is ++ rest) hbase rfl hlane herr hwf
    rw [issued_issued] at hstep
    rw [List.length_cons, run_succ _ hstep, commandsOf_cons]
    exact ih his (commandOf_cache_isSome i hcache) herr'

/-- A program of an ungated lane that begins with a command that leaves a model and no error, the others raising
nothing. -/
theorem run_program (hl : s.lanes[k]? = some l) (herr : l.err = .none) {i : Instr} {is : List Instr}
    (hi : i.WellFormed) (hcache : (commandOf i true { cache := s.cache, lane := l }).cache.isSome)
    (herr' : (commandOf i true { cache := s.cache, lane := l }).lane.err = .none) (his : ∀ j ∈ is, RaisesNothing j) :
    Sys2Proof.core.run (is.length + 1) { s with pending := commandInputs s k true (i :: is) ++ rest } =
      .next (issued s k rest (commandsOf (i :: is) { cache := s.cache, lane := l })) := by
  obtain ⟨hk, -⟩ := List.getElem?_eq_some_iff.1 hl
  have hstep := step_command (s := { s with pending := commandInputs s k true (i :: is) ++ rest })
    (rest := commandInputs s k true is ++ rest) hbase rfl hl herr hi
  rw [run_succ _ hstep]
  exact run_commands hbase hk his hcache herr'

end Run

/-- No primitive of HASHX raises an error where there is a model. -/
theorem hashxPrimitives_raise_nothing : ∀ i ∈ hashxPrimitives, RaisesNothing i := by
  unfold RaisesNothing
  decide

/-- Settles O40: the primitive form of HASHX is the pipeline, and HASH is LOOKUP and then HASHX; no command of either
form raises an error, so nothing gates the lane on the way. -/
theorem macroCommandsEqualTheirPrimitiveForms : Obligations.MacroCommandsEqualTheirPrimitiveForms := by
  unfold Obligations.MacroCommandsEqualTheirPrimitiveForms
  intro s k l rest hbase hl herr
  have hsingle : ∀ i : Instr, i.WellFormed → step { s with pending := commandInputs s k true [i] ++ rest } =
      .next (issued s k rest (commandOf i true { cache := s.cache, lane := l })) :=
    fun i => step_command (s := { s with pending := commandInputs s k true [i] ++ rest }) hbase rfl hl herr
  refine ⟨?_, fun hne => ?_⟩
  · have hmodel : (commandOf (.lookup 32#8) true { cache := s.cache, lane := l }).cache.isSome := by
      rw [commandOf_lookup_cache, Option.isSome_some]
    have hrun := run_program (rest := rest) hbase hl herr rfl hmodel ((commandOf_err _ _).trans herr)
      hashxPrimitives_raise_nothing
    rw [commandsOf_cons, commandsOf_hashxPrimitives hmodel, ← commandOf_hash_eq_lookup_hashx] at hrun
    rw [hsingle _ rfl]
    exact hrun
  · have hmodel : s.cache.isSome := Option.isSome_iff_ne_none.2 hne
    have hrun := run_program (rest := rest) hbase hl herr (i := .srst) rfl hmodel herr
      (List.forall_mem_cons.1 hashxPrimitives_raise_nothing).2
    rw [hsingle _ rfl, ← commandsOf_hashxPrimitives (v := { cache := s.cache, lane := l }) hmodel]
    exact hrun

end Sys2Proof.Spec
end

section
/-!
PROOFS. What a failing command word changes (60_exceptions.md R132, R133): the word of a command is its encoding, and a
word that leaves an error on an ungated lane raises it and nothing else, or has its grant refused.
-/

namespace Sys2Proof

/-! ## The word of a command (R50, R51) -/

/-- A word in a row of the opcode map whose unused fields are zero is the encoding of its row's command. -/
theorem encode_instrOf {w : Word} {o : Opcode} (hop : opcodeOf (opField w) = some o)
    (hfields : unusedFieldsZero (opcodeFormat o) w = true) :
    encode (instrOf o (slenField w) (ilenField w) (argField w)) = w := by
  have hword := assembleWord_fields w
  rw [opcodeOf_some hop] at hword
  refine Eq.trans ?_ hword
  cases o <;> simp [unusedFieldsZero, opcodeFormat, usesSlen, usesIlen, usesArg] at hfields <;>
    simp [instrOf, encode, opcodeByte, hfields]

/-- A word that decodes is the encoding of the command it decodes to. -/
theorem encode_of_decode {w : Word} {i : Instr} (h : decode w = .ok i) : encode i = w := by
  cases hop : opcodeOf (opField w) with
  | none => rw [decode_of_reserved hop] at h; cases h
  | some o =>
    obtain ⟨hfields, -⟩ := (decodes_iff_of_row hop).1 ⟨i, h⟩
    simp only [decode, hop, hfields, if_true] at h
    split at h
    · cases h
    · obtain rfl := Except.ok.inj h
      exact encode_instrOf hop hfields

end Sys2Proof

namespace Sys2Proof.Machine

/-- `v'` is what a word `w` that fails may leave of the view `v` (R133): an error with its `Fail` alone, or a refused grant,
which also empties the cache and, after a lookup, leaves `HIT` at 0. -/
def FailedView (w : Word) (v v' : View) : Prop :=
  (∃ e, e ≠ .allocationFailure ∧ v' = v.raise e) ∨
  (w = 0x01200000#32 ∧ v' = { cache := none, lane := v.lane.fail .allocationFailure }) ∨
  ((w = 0x06200000#32 ∨ w = 0x07202000#32) ∧
    v' = { cache := none, lane := (v.lane.setHit false).fail .allocationFailure })

/-- A command that leaves an error where there was none fails as R133 says. -/
theorem commandOf_failedView {i : Instr} {g : Bool} {v : View} (herr : v.lane.err = .none)
    (hfail : (commandOf i g v).lane.err ≠ .none) : FailedView (encode i) v (commandOf i g v) := by
  obtain ⟨e, -, he, hview⟩ | ⟨rfl, -, hview⟩ | ⟨hi, -, hview⟩ | ⟨rfl, -⟩ | ⟨hkept, -⟩ := commandOf_cases i g v
  · exact .inl ⟨e, he, hview⟩
  · exact .inr (.inl ⟨by decide, hview⟩)
  · have hword : ∀ j ∈ [Instr.lookup 32#8, Instr.hash 32#8 32#8],
        encode j = 0x06200000#32 ∨ encode j = 0x07202000#32 := by decide
    exact .inr (.inr ⟨hword i hi, hview⟩)
  · exact absurd rfl hfail
  · exact absurd (hkept.trans herr) hfail

section Issue

variable {s t : State} {k : Nat} {w : Word} {l l' : Lane} (hl : s.lanes[k]? = some l) (herr : l.err = .none)
include hl herr

/-- An ungated lane runs the view command of a word that decodes (R53 step 5). -/
theorem issue_command {i : Instr} (hw : decode w = .ok i) :
    issue k w s =
      .next (({ s with cur := k } : State).withView (commandOf i s.grant { cache := s.cache, lane := l })) := by
  simp only [issue, hl, if_pos herr, runWord, hw]
  exact exec_of_lane (s := { s with cur := k }) i hl

/-- A word that leaves an error on an ungated lane puts a failed view back there, whether it is a command or not. -/
theorem issue_failedView (ht : issue k w s = .next t) (hl' : t.lanes[k]? = some l') (hfail : l'.err ≠ .none) :
    ∃ v, t = ({ s with cur := k } : State).withView v ∧ l' = v.lane ∧
      FailedView w { cache := s.cache, lane := l } v := by
  have hlane : ∀ {v}, t = ({ s with cur := k } : State).withView v → l' = v.lane := by
    rintro v rfl
    exact Option.some.inj (hl'.symm.trans (withView_lane (s := { s with cur := k }) hl v))
  by_cases hw : ∃ i, decode w = .ok i
  · obtain ⟨i, hi⟩ := hw
    have hview := (Host.Outcome.next.inj ((issue_command hl herr hi).symm.trans ht)).symm
    refine ⟨_, hview, hlane hview, ?_⟩
    rw [hlane hview] at hfail
    exact encode_of_decode hi ▸ commandOf_failedView herr hfail
  · have hview : t = ({ s with cur := k } : State).withView
        (View.raise { cache := s.cache, lane := l } .illegalCommand) :=
      (Host.Outcome.next.inj ((issue_no_command hl hw herr).symm.trans ht)).symm
    exact ⟨_, hview, hlane hview, .inl ⟨.illegalCommand, nofun, rfl⟩⟩

end Issue

end Sys2Proof.Machine

namespace Sys2Proof.Spec

open Sys2Proof.Machine

/-- Settles O35: the view a failing word puts back is one of the three failed views, which differ in the word and in
whether the error is code 3. -/
theorem errorsArePrecise : Obligations.ErrorsArePrecise := by
  unfold Obligations.ErrorsArePrecise
  intro s t k w l l' hl herr ht hl' hfail
  obtain ⟨v, rfl, rfl, ⟨e, he, rfl⟩ | ⟨rfl, rfl⟩ | ⟨hw, rfl⟩⟩ := issue_failedView hl herr ht hl' hfail
  · exact ⟨fun _ => rfl, fun hcode => absurd hcode he⟩
  · exact ⟨fun hcode => absurd rfl hcode, fun _ => ⟨fun _ => rfl, fun hne => absurd rfl hne⟩⟩
  · have hmat : w ≠ 0x01200000#32 := by rcases hw with rfl | rfl <;> decide
    exact ⟨fun hcode => absurd rfl hcode, fun _ => ⟨fun h => absurd h hmat, fun _ => ⟨hw, rfl⟩⟩⟩

end Sys2Proof.Spec
end

section
/-!
PROOFS. The encoding (30_encoding.md): decoding and encoding are inverse to each other, and the words of the opcode table
and of the assembler's lines as numbers.
-/

namespace Sys2Proof

/-- A word that decodes passed the test of R53 step 4, so its command has an encoding. -/
theorem wellFormed_of_decode {w : Word} {i : Instr} (h : decode w = .ok i) : i.WellFormed := by
  cases i with
  | nop | mat | enc | dec | srst | lookup | hash | hashx | clrerr => rfl
  | lfwd arg =>
    obtain ⟨hrow, -⟩ := encodedRow (.lfwd arg)
    have hdecodes : ∃ i, decode (encode (.lfwd arg)) = .ok i := ⟨_, (encode_of_decode h).symm ▸ h⟩
    obtain ⟨-, hlayer⟩ := (decodes_iff_of_row hrow).1 hdecodes
    rw [← argField_toNat, encode, argField_assembleWord] at hlayer
    have hle : arg.toNat ≤ 65 := by
      by_contra hgt
      exact hlayer ⟨rfl, by omega⟩
    exact decide_eq_true hle

end Sys2Proof

namespace Sys2Proof.Spec

/-- Settles O1: the word names the command's row, its unused fields are zero, and its used fields are the operands. -/
theorem decodeEncodeRoundTrip : Obligations.DecodeEncodeRoundTrip := by
  unfold Obligations.DecodeEncodeRoundTrip
  exact fun _ => decode_encode

/-- Settles O2: the word of the decoded command has the four fields the word has. -/
theorem decodedWordIsItsEncoding : Obligations.DecodedWordIsItsEncoding := by
  unfold Obligations.DecodedWordIsItsEncoding
  exact fun _ _ h => ⟨wellFormed_of_decode h, encode_of_decode h⟩

/-- Settles O4: the table's words, each decoded by computation. -/
theorem opcodeTableWordsDecode : Obligations.OpcodeTableWordsDecode := by
  unfold Obligations.OpcodeTableWordsDecode
  decide

/-- Settles O5: a word's number is its four fields in base 256, those the format does not use being 0. -/
theorem assemblerEncodings : Obligations.AssemblerEncodings := by
  unfold Obligations.AssemblerEncodings
  refine ⟨rfl, rfl, rfl, rfl, fun a b => ?_⟩
  simp [encode, toNat_assembleWord]

end Sys2Proof.Spec
end

section
/-!
PROOFS. What a step can do (20_memory.md R40; 60_exceptions.md R134), said once: with nothing pending nothing, otherwise
the host's next move is a reset, an access that only answers, a write to a row of a lane, or a command word. From it the
parameters, the invariant, and the runs of a host that addresses only the block.
-/

namespace Sys2Proof.Machine

/-! ## A command word on a lane (R53, R134) -/

/-- `v'` is what a lane may make of its view `v` when it takes a word: an ungated lane runs a command or takes
IllegalCommand, a gated one runs CLRERR. -/
inductive IssuedView (g : Bool) (v : View) : View → Prop where
  | command (i : Instr) (herr : v.lane.err = .none) : IssuedView g v (commandOf i g v)
  | illegal : IssuedView g v (v.raise .illegalCommand)
  | clearError : IssuedView g v (commandOf .clrerr g v)

/-- A lane drops a word, or puts back what it makes of its view. -/
theorem issue_cases {s t : State} {k : Nat} {w : Word} (h : issue k w s = .next t) :
    t = s ∨ ∃ l v, s.lanes[k]? = some l ∧ t = ({ s with cur := k } : State).withView v ∧
      IssuedView s.grant { cache := s.cache, lane := l } v := by
  cases hl : s.lanes[k]? with
  | none => simp only [issue, hl] at h; cases h
  | some l =>
    by_cases herr : l.err = .none
    · by_cases hw : ∃ i, decode w = .ok i
      · obtain ⟨i, hi⟩ := hw
        obtain rfl := Host.Outcome.next.inj ((issue_command hl herr hi).symm.trans h)
        exact .inr ⟨l, _, rfl, rfl, .command i herr⟩
      · obtain rfl := Host.Outcome.next.inj ((issue_no_command hl hw herr).symm.trans h)
        exact .inr ⟨l, View.raise { cache := s.cache, lane := l } .illegalCommand, rfl, rfl, .illegal⟩
    · by_cases hw : w = clrErrWord
      · subst hw
        obtain rfl := Host.Outcome.next.inj ((issue_gated_clrerr hl herr).symm.trans h)
        exact .inr ⟨l, { cache := s.cache, lane := l.clearError }, rfl, rfl, .clearError⟩
      · exact .inl (Host.Outcome.next.inj ((issue_gated_dropped hl herr hw).symm.trans h)).symm

/-! ## One move of the host (R40) -/

/-- `t` is what a move of the host may make of the state `u` in which it takes effect: the reset state, an answer alone, a
row of a lane written, or what a lane makes of a command word. -/
inductive Moved (u : State) : State → Prop where
  | reset : Moved u (resetBlock u)
  | answered (r : Reply) : Moved u (u.answer r)
  | wrote {k : Nat} {l : Lane} (row : WindowRow) (off n : Nat) (v : Word) (hl : u.lanes[k]? = some l) :
      Moved u { u.answer .nothing with lanes := u.lanes.set k (writeRow l row off n v) }
  | issued {k : Nat} {w : Word} {t : State} (h : issue k w (u.answer .nothing) = .next t) : Moved u t

theorem hostRead_moved {addr n : Nat} {u t : State} (h : hostRead addr n u = .next t) : Moved u t := by
  unfold hostRead at h
  repeat' split at h
  · cases h
  · cases h
  · obtain rfl := Host.Outcome.next.inj h
    exact .answered _
  · obtain rfl := Host.Outcome.next.inj h
    exact .answered _

theorem hostWrite_moved {addr n : Nat} {v : Word} {u t : State} (h : hostWrite addr n v u = .next t) : Moved u t := by
  unfold hostWrite at h
  repeat' split at h
  · cases h
  · cases h
  · obtain rfl := Host.Outcome.next.inj h
    exact .answered _
  · exact .issued h
  · next hl _ _ _ _ =>
    obtain rfl := Host.Outcome.next.inj h
    exact .wrote _ _ _ _ hl

theorem hostMove_moved {m : HostMove} {u t : State} (h : hostMove m u = .next t) : Moved u t := by
  cases m with
  | read addr n => exact hostRead_moved h
  | write addr n v => exact hostWrite_moved h
  | reset =>
    obtain rfl := Host.Outcome.next.inj h
    exact .reset

/-- A step with a move pending is that move, in the state that has taken it. -/
theorem step_of_pending {s : State} {inp : HostInput} {rest : List HostInput} (h : s.pending = inp :: rest) :
    step s = hostMove inp.move (s.take inp rest) := by
  simp only [step, nextMove, h]

/-- With no move pending a step changes nothing (R142). -/
theorem step_of_idle {s : State} (h : s.pending = []) : step s = .next s := by
  simp only [step, nextMove, h]

/-- A step is idle or one move of the host. -/
theorem step_cases {s t : State} (h : step s = .next t) :
    (s.pending = [] ∧ t = s) ∨ ∃ inp rest, s.pending = inp :: rest ∧ Moved (s.take inp rest) t := by
  cases hp : s.pending with
  | nil => exact .inl ⟨rfl, (Host.Outcome.next.inj ((step_of_idle hp).symm.trans h)).symm⟩
  | cons inp rest => exact .inr ⟨inp, rest, rfl, hostMove_moved ((step_of_pending hp).symm.trans h)⟩

/-! ## What every step leaves (R6, R45) -/

/-- A move keeps the parameters and the host's later moves. -/
theorem Moved.frame {u t : State} (h : Moved u t) :
    t.base = u.base ∧ t.lanes.length = u.lanes.length ∧ t.pending = u.pending := by
  cases h with
  | reset | answered | wrote => simp
  | issued h =>
    obtain rfl | ⟨l, v, -, rfl, -⟩ := issue_cases h <;> simp

theorem step_params {s t : State} (h : step s = .next t) : t.base = s.base ∧ t.lanes.length = s.lanes.length := by
  obtain ⟨-, rfl⟩ | ⟨inp, rest, -, hmoved⟩ := step_cases h
  · exact ⟨rfl, rfl⟩
  · obtain ⟨hbase, hlanes, -⟩ := hmoved.frame
    exact ⟨hbase, hlanes⟩

/-- A step takes at most the first of the pending moves. -/
theorem step_pending_subset {s t : State} (h : step s = .next t) : t.pending ⊆ s.pending := by
  obtain ⟨-, rfl⟩ | ⟨inp, rest, hp, hmoved⟩ := step_cases h
  · exact List.Subset.refl _
  · obtain ⟨-, -, hpending⟩ := hmoved.frame
    rw [hpending, hp]
    exact List.subset_cons_self inp rest

/-! ## The invariant (R6, R132, R134) -/

theorem Lane.reset_wf : Lane.reset.Wf := fun _ => rfl

theorem Lane.fail_wf (l : Lane) (e : ErrCode) : (l.fail e).Wf := fun _ => rfl

/-- A command on a lane without a latched error leaves the lane's flags agreeing: an error it raises clears `DVALID`, and
where it sets `DVALID` it leaves `ERR`. -/
theorem commandOf_wf {v : View} (i : Instr) (g : Bool) (herr : v.lane.err = .none) : (commandOf i g v).lane.Wf := by
  obtain ⟨e, -, -, h⟩ | ⟨-, -, h⟩ | ⟨-, -, h⟩ | ⟨-, h⟩ | ⟨h, -⟩ := commandOf_cases i g v
  · rw [h]; exact Lane.fail_wf _ _
  · rw [h]; exact Lane.fail_wf _ _
  · rw [h]; exact Lane.fail_wf _ _
  · rw [h]; exact fun hne => absurd rfl hne
  · exact fun hne => absurd (h.trans herr) hne

theorem IssuedView.wf {g : Bool} {v v' : View} (h : IssuedView g v v') : v'.lane.Wf := by
  cases h with
  | command i herr => exact commandOf_wf i g herr
  | illegal => exact Lane.fail_wf _ _
  | clearError => exact fun hne => absurd rfl hne

/-- Replacing a lane by one whose flags agree keeps the invariant, whichever existing lane is then the issuing one. -/
theorem inv_set_lane {s t : State} {k : Nat} {l : Lane} (hs : s.Inv) (hl : l.Wf) (hbase : t.base = s.base)
    (hlanes : t.lanes = s.lanes.set k l) (hcur : t.cur < s.lanes.length) : t.Inv := by
  obtain ⟨hb, -, hw⟩ := hs
  refine ⟨hbase ▸ hb, by rwa [hlanes, List.length_set], fun m hm => ?_⟩
  rw [hlanes] at hm
  obtain hm | rfl := List.mem_or_eq_of_mem_set hm
  · exact hw m hm
  · exact hl

theorem Moved.inv {u t : State} (h : Moved u t) (hu : u.Inv) : t.Inv := by
  obtain ⟨hbase, hcur, hwf⟩ := hu
  cases h with
  | reset =>
    refine ⟨hbase, by simpa using hcur, fun l hl => ?_⟩
    obtain ⟨-, -, rfl⟩ := List.mem_map.1 hl
    exact Lane.reset_wf
  | answered r => exact ⟨hbase, hcur, hwf⟩
  | @wrote k l row off n v hl =>
    refine inv_set_lane ⟨hbase, hcur, hwf⟩ ?_ rfl rfl hcur
    rw [Lane.Wf, writeRow_err, writeRow_dvalid]
    exact hwf l (List.mem_of_getElem? hl)
  | issued h =>
    obtain rfl | ⟨l, v, hl, rfl, hv⟩ := issue_cases h
    · exact ⟨hbase, hcur, hwf⟩
    · obtain ⟨hk, -⟩ := List.getElem?_eq_some_iff.1 hl
      exact inv_set_lane ⟨hbase, hcur, hwf⟩ hv.wf rfl rfl hk

theorem step_inv {s t : State} (hs : s.Inv) (h : step s = .next t) : t.Inv := by
  obtain ⟨-, rfl⟩ | ⟨inp, rest, -, hmoved⟩ := step_cases h
  · exact hs
  · exact hmoved.inv hs

/-- A block with any legal parameters starts in the invariant. -/
theorem reset_inv (m n : Nat) :
    { State.reset with base := 256 * m, lanes := List.replicate (n + 1) Lane.reset }.Inv := by
  refine ⟨Nat.mul_mod_right 256 m, by simp [State.reset], fun l hl => ?_⟩
  rw [List.eq_of_mem_replicate hl]
  exact Lane.reset_wf

/-! ## A host that addresses only the block (U8) -/

/-- An address in a window is an offset in the window of an existing lane. -/
theorem inBlock_window {s : State} {addr : Nat} (h : InBlock s addr) :
    ∃ k off, k < s.lanes.length ∧ off < 256 ∧ addr = s.base + 256 * k + off := by
  obtain ⟨hlo, hhi⟩ := h
  unfold laneBase Config.windowBytes at hhi
  exact ⟨(addr - s.base) / 256, (addr - s.base) % 256, by omega, by omega, by omega⟩

/-- Whatever its width and alignment, a move inside the block has a successor. -/
theorem step_succeeds {s : State} (h : PendingInBlock s) : ∃ t, step s = .next t := by
  cases hp : s.pending with
  | nil => exact ⟨s, step_of_idle hp⟩
  | cons inp rest =>
    have hmove : MoveInBlock s inp.move := h inp (hp ▸ List.mem_cons_self)
    obtain ⟨m, g⟩ := inp
    cases m with
    | reset => exact ⟨_, step_of_pending hp⟩
    | read addr n =>
      obtain ⟨k, off, hk, hoff, rfl⟩ := inBlock_window hmove
      rw [step_read hp (List.getElem?_eq_getElem hk) hoff]
      split
      · exact ⟨_, rfl⟩
      · exact ⟨_, rfl⟩
    | write addr n v =>
      obtain ⟨k, off, hk, hoff, rfl⟩ := inBlock_window hmove
      rw [step_write hp (List.getElem?_eq_getElem hk) hoff]
      split
      · exact ⟨_, rfl⟩
      · obtain ⟨t, ht, -⟩ := issue_next (s := { s with pending := rest, grant := g, reply := .nothing }) v hk
        exact ⟨t, ht⟩
      · exact ⟨_, rfl⟩

/-- The windows do not move, so the host's later moves stay inside the block. -/
theorem step_pendingInBlock {s t : State} (hs : PendingInBlock s) (h : step s = .next t) : PendingInBlock t := by
  obtain ⟨hbase, hlanes⟩ := step_params h
  have hin : ∀ {addr}, InBlock s addr → InBlock t addr := fun ⟨hlo, hhi⟩ => by
    unfold InBlock laneBase
    rw [hbase, hlanes]
    exact ⟨hlo, hhi⟩
  intro inp hinp
  have hmove := hs inp (step_pending_subset h hinp)
  cases hm : inp.move with
  | reset => trivial
  | read addr n => rw [hm] at hmove; exact hin hmove
  | write addr n v => rw [hm] at hmove; exact hin hmove

theorem safeRun_of_pendingInBlock (n : Nat) {s : State} (h : PendingInBlock s) : SafeRun n s := by
  induction n generalizing s with
  | zero => exact ⟨s, run_zero s⟩
  | succ n ih =>
    obtain ⟨t, ht⟩ := step_succeeds h
    obtain ⟨u, hu⟩ := ih (step_pendingInBlock h ht)
    exact ⟨u, (run_succ n ht).trans hu⟩

end Sys2Proof.Machine

namespace Sys2Proof.Spec

open Sys2Proof.Machine

/-- Settles O43: a command raises an error or sets `DVALID`, never both; a gated lane runs CLRERR only; and no move of the
host but reset writes a flag. -/
theorem stepKeepsTheInvariant : Obligations.StepKeepsTheInvariant := by
  unfold Obligations.StepKeepsTheInvariant
  exact fun _ _ => step_inv

/-- Settles O45: a reset rewrites each lane and every other move at most one, and none of them writes `BASE`. -/
theorem parametersNeverChange : Obligations.ParametersNeverChange := by
  unfold Obligations.ParametersNeverChange
  exact fun _ _ => step_params

/-- Settles O46: a move inside the block has a successor, in which the later moves are still inside the block; the
invariant is not needed. -/
theorem inBlockRunsNeverStop : Obligations.InBlockRunsNeverStop := by
  unfold Obligations.InBlockRunsNeverStop
  exact fun n _ _ => safeRun_of_pendingInBlock n

/-- Settles O44: the defaults are the legal parameters 0 and 1. -/
theorem resetSatisfiesTheInvariant : Obligations.ResetSatisfiesTheInvariant := by
  unfold Obligations.ResetSatisfiesTheInvariant
  exact ⟨reset_inv 0 0, reset_inv⟩

/-- Settles O32: a lane runs a word's command, takes IllegalCommand, or drops the word. -/
theorem everyCommandWordHasASuccessor : Obligations.EveryCommandWordHasASuccessor := by
  unfold Obligations.EveryCommandWordHasASuccessor
  intro s k w hk
  obtain ⟨t, ht, -⟩ := issue_next w hk
  exact ⟨t, ht⟩

/-- Settles O8: an idle step takes no move. -/
theorem idleStepChangesNothing : Obligations.IdleStepChangesNothing := by
  unfold Obligations.IdleStepChangesNothing
  exact fun _ => step_of_idle

/-- Settles O6: the pending write reaches `CMD` of its lane, which is not gated. -/
theorem stepRunsDecodedCommand : Obligations.StepRunsDecodedCommand := by
  unfold Obligations.StepRunsDecodedCommand
  exact fun _ _ _ _ _ _ _ hp hbase hl herr hw => step_runs_command hp hbase hl herr hw

/-- Settles O7: the word reaches the lane, which is gated and so drops it unless it is CLRERR. -/
theorem latchedErrorGatesTheLane : Obligations.LatchedErrorGatesTheLane := by
  unfold Obligations.LatchedErrorGatesTheLane
  intro s k l w g rest hp hbase hl herr
  have htaken : (taken s g rest).lanes[k]? = some l := hl
  rw [step_issues hp hbase hl]
  refine ⟨issue_gated_dropped htaken herr, ?_⟩
  rintro rfl
  exact issue_gated_clrerr htaken herr

/-- Settles O10: the reset state of each lane is the lane of `State.reset`. -/
theorem resetMoveRestoresResetValues : Obligations.ResetMoveRestoresResetValues := by
  unfold Obligations.ResetMoveRestoresResetValues
  intro s g rest hp
  refine ⟨_, step_of_pending hp, rfl, rfl, by simp, fun l hl => ?_, rfl⟩
  obtain ⟨-, -, rfl⟩ := List.mem_map.1 hl
  exact (mem_reset_lanes_iff _).2 rfl

/-- Settles O15: an address in no window is located nowhere, for a read and for a write. -/
theorem accessOutsideTheBlockStops : Obligations.AccessOutsideTheBlockStops := by
  unfold Obligations.AccessOutsideTheBlockStops
  intro s addr n v g rest hout
  refine ⟨fun hp => ?_, fun hp => ?_⟩
  · rw [step_of_pending hp]
    simp only [hostMove, hostRead, locate_outside (s := s.take _ rest) hout]
  · rw [step_of_pending hp]
    simp only [hostMove, hostWrite, locate_outside (s := s.take _ rest) hout]

end Sys2Proof.Spec
end

section
/-!
PROOFS. What reads return (20_memory.md R34, R36; 10_state.md R21): the bytes of the three arrays, zeros elsewhere, and
the fields of `STATUS`.
-/

namespace Sys2Proof.Machine

theorem rowOf_eq_digest_iff (off : Nat) : rowOf off = .digest ↔ 0x60 ≤ off ∧ off < 0x80 := by
  unfold rowOf
  repeat' split
  all_goals simp
  all_goals omega

theorem rowOf_eq_status_iff (off : Nat) : rowOf off = .status ↔ 4 ≤ off ∧ off < 8 := by
  unfold rowOf
  repeat' split
  all_goals simp
  all_goals omega

/-! ## The bytes of a read (R34) -/

/-- An accepted read leaves the bits above its width 0; a read of `STATUS` is 4 bytes wide, so it has none above. -/
theorem readRow_high (mvalid : Bool) (l : Lane) (row : WindowRow) (off : Nat) {n b : Nat}
    (hn : row = .status → n = 4) (hb : 8 * n ≤ b) : (readRow mvalid l row off n).getLsbD b = false := by
  cases row with
  | cmd | reserved => exact BitVec.getLsbD_zero
  | status =>
    obtain rfl := hn rfl
    exact BitVec.getLsbD_of_ge _ _ hb
  | seed | input | digest => exact readBytes_high _ _ _ hb

/-- Byte `j` of an accepted read of a register is the entry of the register it addresses. -/
theorem getElem?_eq_extract_readBytes (a : Bytes32) {i n j : Nat} (hj : j < n) (hn : n ≤ 4) (hi : i + j < 32) :
    a[i + j]? = some ((readBytes a i n).extractLsb' (8 * j) 8) := by
  rw [extract_readBytes a i n hj hn, getElem?_eq_byteAt a hi]

/-! ## The fields of STATUS (R21) -/

section StatusFields

variable (m : Bool) (l : Lane)

theorem statusWord_getLsbD_three : (statusWord m l).getLsbD 3 = false := by
  simp only [statusWord, BitVec.getLsbD_append]
  simp

theorem statusWord_getLsbD_four : (statusWord m l).getLsbD 4 = l.dvalid := by
  simp only [statusWord, BitVec.getLsbD_append]
  simp

theorem statusWord_getLsbD_six : (statusWord m l).getLsbD 6 = m := by
  simp only [statusWord, BitVec.getLsbD_append]
  simp

theorem statusWord_getLsbD_seven : (statusWord m l).getLsbD 7 = l.hit := by
  simp only [statusWord, BitVec.getLsbD_append]
  simp

/-- Bits 31:8 of `STATUS` are zero. -/
theorem statusWord_high : (statusWord m l).extractLsb' 8 24 = 0#24 := by
  apply BitVec.eq_of_getLsbD_eq
  intro b hb
  rw [BitVec.getLsbD_extractLsb', statusWord, decide_eq_true hb, Bool.true_and]
  simp only [BitVec.getLsbD_append]
  repeat rw [if_neg (by omega)]
  exact BitVec.getLsbD_zero.trans BitVec.getLsbD_zero.symm

/-- The codes are 0 to 5 (R130). -/
theorem errBits_le (e : ErrCode) : errBits e ≤ 5#3 := by
  cases e <;> decide

end StatusFields

end Sys2Proof.Machine

namespace Sys2Proof.Spec

open Sys2Proof.Machine

/-- An accepted access lies in one of the arrays of 32 bytes with all its bytes, since the arrays are aligned. -/
theorem accepted_read_in_array {base k off n i : Nat} (hbase : base % 256 = 0)
    (hr : ¬ RefusedAccess (base + 256 * k + off) off n) (hi : i < n) : n ≤ 4 ∧ off % 32 + i < 32 := by
  obtain ⟨rfl | rfl | rfl, -, halign⟩ := (not_refusedAccess_iff _ _ _).1 hr <;> omega

/-- Settles O12: the answer is the row's, which is the addressed bytes in the arrays and 0 in `CMD` and the reserved
ranges. -/
theorem readsReturnTheAddressedBytes : Obligations.ReadsReturnTheAddressedBytes := by
  unfold Obligations.ReadsReturnTheAddressedBytes
  intro s k off n l g rest hbase hl ho hp hr
  obtain ⟨-, hword, -⟩ := (not_refusedAccess_iff _ _ _).1 hr
  have hin : ∀ i < n, n ≤ 4 ∧ off % 32 + i < 32 := fun i hi => accepted_read_in_array hbase hr hi
  refine ⟨_, step_read_accepted hp hbase hl ho hr, fun b => readRow_high _ _ _ _ fun hrow => ?_,
    fun i hi hlo hhi => ?_, fun i hi hlo hhi => ?_, fun i hi hlo hhi => ?_, fun hoff => ?_⟩
  · exact hword ((rowOf_eq_status_iff off).1 hrow).2
  · obtain ⟨hn, hbyte⟩ := hin i hi
    rw [(rowOf_eq_seed_iff off).2 ⟨hlo, hhi⟩]
    exact getElem?_eq_extract_readBytes l.seed hi hn (by omega)
  · obtain ⟨hn, hbyte⟩ := hin i hi
    rw [(rowOf_eq_input_iff off).2 ⟨hlo, hhi⟩]
    exact getElem?_eq_extract_readBytes l.input hi hn (by omega)
  · obtain ⟨hn, hbyte⟩ := hin i hi
    rw [(rowOf_eq_digest_iff off).2 ⟨hlo, hhi⟩]
    exact getElem?_eq_extract_readBytes l.digest hi hn (by omega)
  · cases hrow : rowOf off with
    | cmd | reserved => rfl
    | status => rw [rowOf_eq_status_iff] at hrow; omega
    | seed => rw [rowOf_eq_seed_iff] at hrow; omega
    | input => rw [rowOf_eq_input_iff] at hrow; omega
    | digest => rw [rowOf_eq_digest_iff] at hrow; omega

/-- Settles O14: the read answers `statusWord`, field by field, and a write to the row leaves the lane. -/
theorem statusWordFields : Obligations.StatusWordFields := by
  unfold Obligations.StatusWordFields
  refine ⟨fun s k l g rest hbase hl => ?_, statusWord_reset⟩
  have haccepted : ¬ RefusedAccess (s.base + 256 * k + 4) 4 4 := by
    rw [not_refusedAccess_iff]
    omega
  refine ⟨fun hp => ⟨statusWord s.valid l, step_read_accepted hp hbase hl (by decide) haccepted, ?_⟩, fun v hp => ?_⟩
  · have herr : ∀ {e}, l.err = e → (statusWord s.valid l).extractLsb' 0 3 = errBits e := by
      rintro _ rfl
      exact statusWord_err_bits _ l
    exact ⟨herr, herr, herr, herr, herr, herr, herr rfl ▸ errBits_le l.err, statusWord_getLsbD_three _ _,
      statusWord_getLsbD_four _ _, statusWord_getLsbD_five _ _, statusWord_getLsbD_six _ _,
      statusWord_getLsbD_seven _ _, statusWord_high _ _⟩
  · rw [step_write_register hp hbase hl (by decide) haccepted (by decide), (rowOf_eq_status_iff 4).2 (by decide),
      writeRow_ignored (row := .status) l 4 4 v nofun nofun, lanes_set_self hl]
    rfl

end Sys2Proof.Spec
end

section
/-!
PROOFS. Each command on its lane (30_encoding.md R54 to R57; 60_exceptions.md R130 to R135): the errors of a wrong length, a
refused grant or an illegal layer, MAT, ENC and DEC, and what no command writes.
-/

namespace Sys2Proof.Machine

/-! ## MAT (R72, R73) and the errors of the operands (R130, R135) -/

theorem lengthOk_eq_false {len : Byte} (h : len ≠ 32#8) : lengthOk len = false := by
  rw [Bool.eq_false_iff, ne_eq, lengthOk_iff]
  exact h

/-- A refused rebuild, in MAT and, on a miss, after the lookup of LOOKUP and HASH. -/
theorem commandOf_mat_refused (v : View) :
    commandOf (.mat 32#8) false v = { cache := none, lane := v.lane.fail .allocationFailure } := by
  rw [commandOf, matCommand, if_pos ((lengthOk_iff _).2 rfl), rebuild_refused, Progress.ended_view]

theorem commandOf_lookup_refused {v : View} (hmiss : v.cache ≠ some v.lane.seed) :
    commandOf (.lookup 32#8) false v = { cache := none, lane := (v.lane.setHit false).fail .allocationFailure } := by
  rw [commandOf, lookupCommand, if_pos ((lengthOk_iff _).2 rfl), lookupModel_miss hmiss, rebuild_refused,
    Progress.ended_view]

theorem commandOf_hash_refused {v : View} (hmiss : v.cache ≠ some v.lane.seed) :
    commandOf (.hash 32#8 32#8) false v =
      { cache := none, lane := (v.lane.setHit false).fail .allocationFailure } := by
  rw [commandOf, hashCommand, if_pos ((lengthOk_iff _).2 rfl), if_pos ((lengthOk_iff _).2 rfl),
    lookupModel_miss hmiss, rebuild_refused, Progress.ended_andThen]

/-- A wrong seed length ends MAT, LOOKUP and HASH before anything else is looked at. -/
theorem commandOf_wrong_slen {slen : Byte} (h : slen ≠ 32#8) (ilen : Byte) (g : Bool) (v : View) {i : Instr}
    (hi : i ∈ [Instr.mat slen, Instr.lookup slen, Instr.hash slen ilen]) :
    commandOf i g v = v.raise .invalidSeedLength := by
  simp only [List.mem_cons, List.not_mem_nil, or_false] at hi
  rcases hi with rfl | rfl | rfl
  · simp [commandOf, matCommand, lengthOk_eq_false h]
  · simp [commandOf, lookupCommand, lengthOk_eq_false h]
  · simp [commandOf, hashCommand, lengthOk_eq_false h]

/-- A wrong input length ends ENC, HASHX and HASH before the model or the cache is looked at. -/
theorem commandOf_wrong_ilen {ilen : Byte} (h : ilen ≠ 32#8) (g : Bool) (v : View) {i : Instr}
    (hi : i ∈ [Instr.enc ilen, Instr.hashx ilen, Instr.hash 32#8 ilen]) :
    commandOf i g v = v.raise .invalidInputLength := by
  simp only [List.mem_cons, List.not_mem_nil, or_false] at hi
  rcases hi with rfl | rfl | rfl
  · simp [commandOf, encCommand, lengthOk_eq_false h]
  · simp [commandOf, hashxCommand, lengthOk_eq_false h]
  · simp [commandOf, hashCommand, lengthOk_eq_false h]

/-- A layer index that no word has is illegal whether there is a model or not (R135). -/
theorem commandOf_lfwd_illegal {arg : Byte} (h : 65#8 < arg) (g : Bool) (v : View) :
    commandOf (.lfwd arg) g v = v.raise .illegalCommand := by
  rw [commandOf, lfwdCommand, if_neg]
  rw [layerOk_iff]
  exact BitVec.not_le.2 h

/-! ## What no command writes (R54) -/

/-- The lane keeps its `SEED` and its `INPUT`. -/
def SameOperands (l l' : Lane) : Prop := l'.seed = l.seed ∧ l'.input = l.input

theorem layerStep_sameOperands (w : Weights) (n : Nat) (l : Lane) : SameOperands l (l.layerStep w n) := by
  obtain ⟨a, b, c, h⟩ := layerStep_frame w n l
  rw [h]
  exact ⟨rfl, rfl⟩

theorem pipeline_sameOperands (w : Weights) (l : Lane) : SameOperands l (l.pipeline w) := by
  rw [pipeline_eq]
  exact ⟨rfl, rfl⟩

theorem withModel_sameOperands (v : View) {f : Weights → Lane → Lane} (hf : ∀ w l, SameOperands l (f w l)) :
    SameOperands v.lane (v.withModel f).lane := by
  cases h : v.cache with
  | none => rw [withModel_none h]; exact ⟨rfl, rfl⟩
  | some tag => rw [withModel_some h]; exact hf _ _

theorem rebuild_sameOperands (g : Bool) (seed : Bytes32) (v : View) :
    SameOperands v.lane (rebuild g seed v).view.lane := by
  cases g with
  | true => exact ⟨rfl, rfl⟩
  | false => exact ⟨rfl, rfl⟩

theorem lookupModel_sameOperands (g : Bool) (seed : Bytes32) (v : View) :
    SameOperands v.lane (lookupModel g seed v).view.lane := by
  by_cases hc : v.cache = some seed
  · rw [lookupModel_hit hc]
    exact ⟨rfl, rfl⟩
  · rw [lookupModel_miss hc]
    exact rebuild_sameOperands g seed _

/-- What follows a procedure under the model in the store keeps what the procedure kept. -/
theorem andThen_withModel_sameOperands {l : Lane} {p : Progress} {f : Weights → Lane → Lane}
    (hp : SameOperands l p.view.lane) (hf : ∀ w l, SameOperands l (f w l)) :
    SameOperands l (p.andThen fun u => u.withModel f).lane := by
  cases p with
  | ended v => exact hp
  | goesOn v =>
    obtain ⟨hseed, hinput⟩ := hp
    obtain ⟨hseed', hinput'⟩ := withModel_sameOperands v hf
    exact ⟨hseed'.trans hseed, hinput'.trans hinput⟩

/-- No command writes `SEED` or `INPUT`. -/
theorem commandOf_sameOperands (i : Instr) (g : Bool) (v : View) : SameOperands v.lane (commandOf i g v).lane := by
  cases i with
  | nop => exact ⟨rfl, rfl⟩
  | dec => exact ⟨Lane.setDigest_seed _ _, Lane.setDigest_input _ _⟩
  | srst => exact ⟨Lane.clearScratch_seed _, Lane.clearScratch_input _⟩
  | clrerr => exact ⟨Lane.clearError_seed _, Lane.clearError_input _⟩
  | enc ilen =>
    rw [commandOf, encCommand]
    split
    · exact ⟨Lane.setBuffer_seed _ _ _, Lane.setBuffer_input _ _ _⟩
    · exact ⟨rfl, rfl⟩
  | mat slen =>
    rw [commandOf, matCommand]
    split
    · exact rebuild_sameOperands g _ v
    · exact ⟨rfl, rfl⟩
  | lookup slen =>
    rw [commandOf, lookupCommand]
    split
    · exact lookupModel_sameOperands g _ v
    · exact ⟨rfl, rfl⟩
  | lfwd arg =>
    rw [commandOf, lfwdCommand]
    split
    · exact withModel_sameOperands v fun w l => layerStep_sameOperands w _ l
    · exact ⟨rfl, rfl⟩
  | hashx ilen =>
    rw [commandOf, hashxCommand]
    split
    · exact withModel_sameOperands v pipeline_sameOperands
    · exact ⟨rfl, rfl⟩
  | hash slen ilen =>
    rw [commandOf, hashCommand]
    split
    · split
      · exact andThen_withModel_sameOperands (lookupModel_sameOperands g _ v) pipeline_sameOperands
      · exact ⟨rfl, rfl⟩
    · exact ⟨rfl, rfl⟩

/-- A command that changes `DIGEST` or sets `DVALID` is one that ends with a digest, and it has not failed. -/
theorem commandOf_digest_changes {i : Instr} {g : Bool} {v : View}
    (h : (commandOf i g v).lane.digest ≠ v.lane.digest ∨
      (v.lane.dvalid = false ∧ (commandOf i g v).lane.dvalid = true)) :
    i ∈ [Instr.dec, Instr.hash 32#8 32#8, Instr.hashx 32#8] ∧ (commandOf i g v).lane.dvalid = true ∧
      (commandOf i g v).lane.err = v.lane.err := by
  obtain ⟨e, -, -, hv⟩ | ⟨-, -, hv⟩ | ⟨-, -, hv⟩ | ⟨-, hv⟩ | ⟨herr, ⟨hdigest, hdvalid⟩ | ⟨hi, hdvalid⟩⟩ :=
    commandOf_cases i g v
  · simp [hv] at h
  · simp [hv] at h
  · simp [hv] at h
  · simp [hv] at h
  · simp [hdigest, hdvalid] at h
  · exact ⟨hi, hdvalid, herr⟩

end Sys2Proof.Machine

namespace Sys2Proof.Spec

open Sys2Proof.Machine

/-- Settles O17: the rebuild is granted. -/
theorem matRebuildsUnconditionally : Obligations.MatRebuildsUnconditionally := by
  unfold Obligations.MatRebuildsUnconditionally
  exact fun _ _ => exec_mat_granted

/-- Settles O18: the granted rebuild puts the lane's seed in the cache entry, and `W` is the model of that seed. -/
theorem matInstallsTheModelOfTheSeed : Obligations.MatInstallsTheModelOfTheSeed := by
  unfold Obligations.MatInstallsTheModelOfTheSeed
  intro s l hl hg
  exact ⟨_, exec_mat_granted hl hg, rfl, fun g => weight_of_cache rfl⟩

/-- Settles O19: MAT rebuilds at once, LOOKUP and HASH after a miss, which clears `HIT`. -/
theorem refusedGrantEmptiesTheCache : Obligations.RefusedGrantEmptiesTheCache := by
  unfold Obligations.RefusedGrantEmptiesTheCache
  intro s l hl hg
  refine ⟨?_, fun hmiss i hi => ?_⟩
  · rw [exec_of_lane _ hl, hg, commandOf_mat_refused]
    rfl
  · have hview : commandOf i false { cache := s.cache, lane := l } =
        { cache := none, lane := (l.setHit false).fail .allocationFailure } := by
      simp only [List.mem_cons, List.not_mem_nil, or_false] at hi
      rcases hi with rfl | rfl
      · exact commandOf_lookup_refused hmiss
      · exact commandOf_hash_refused hmiss
    rw [exec_of_lane _ hl, hg, hview]
    rfl

/-- Settles O20: the length of the seed is tested first in all three. -/
theorem wrongSeedLengthRaisesInvalidSeedLength : Obligations.WrongSeedLengthRaisesInvalidSeedLength := by
  unfold Obligations.WrongSeedLengthRaisesInvalidSeedLength
  intro s l slen ilen hl hlen i hi
  rw [exec_of_lane _ hl, commandOf_wrong_slen hlen ilen _ _ hi]
  rfl

/-- Settles O21: the length of the input is tested before the model and the cache. -/
theorem wrongInputLengthRaisesInvalidInputLength : Obligations.WrongInputLengthRaisesInvalidInputLength := by
  unfold Obligations.WrongInputLengthRaisesInvalidInputLength
  intro s l ilen hl hlen i hi
  rw [exec_of_lane _ hl, commandOf_wrong_ilen hlen _ _ hi]
  rfl

/-- Settles O27: the index is tested before the model. -/
theorem lfwdBeyondTheLastLayerIsIllegal : Obligations.LfwdBeyondTheLastLayerIsIllegal := by
  unfold Obligations.LfwdBeyondTheLastLayerIsIllegal
  intro s l arg hl harg
  rw [exec_of_lane _ hl, commandOf_lfwd_illegal harg]
  rfl

/-- Settles O22: the current buffer takes the padded code, whose bits are those of `encode` and zeros. -/
theorem encWritesTheCodeOfTheInput : Obligations.EncWritesTheCodeOfTheInput := by
  unfold Obligations.EncWritesTheCodeOfTheInput
  intro s l hl
  refine ⟨padBits (encodeBits l.input), ?_, fun k hk i hi x hx => ?_, fun t ht hhigh => ?_⟩
  · rw [exec_of_lane _ hl, ← encodeInput_frame]
    rfl
  · rw [getElem?_eq_byteAt _ (by omega)] at hx
    rw [getElem?_eq_bitAt _ (by omega), bitAt_padBits_256, bitAt_encodeBits_byte_bit _ hk hi, Option.some.inj hx]
  · rw [getElem?_eq_bitAt _ ht, bitAt_padBits_256, bitAt_of_le _ hhigh]

/-- Settles O23: the digest is the decoded low part of the current buffer. -/
theorem decWritesTheDigest : Obligations.DecWritesTheDigest := by
  unfold Obligations.DecWritesTheDigest
  intro s l hl
  refine ⟨decodeBits (lowBits l.current), exec_of_lane _ hl, fun k hk => ?_⟩
  rw [getElem?_eq_byteAt _ (by omega), Option.map_some, byteAt_decodeBits_toNat _ hk]
  refine congrArg some (Finset.sum_congr rfl fun i hi => ?_)
  have hi := Finset.mem_range.1 hi
  rw [bitAt_lowBits _ (by omega)]
  rfl

/-- Settles O33: the state a command leaves is the old one with the view of its lane put back, and that lane keeps its
operands. -/
theorem commandsWriteOnlyTheirOwnLane : Obligations.CommandsWriteOnlyTheirOwnLane := by
  unfold Obligations.CommandsWriteOnlyTheirOwnLane
  intro i s t h
  obtain ⟨l, hl, rfl⟩ := exec_next h
  refine ⟨fun k hk => withView_other hk _, fun m l' hm hl' => ?_, rfl, rfl, rfl, rfl, rfl⟩
  obtain rfl := Option.some.inj (hl.symm.trans hm)
  obtain rfl := Option.some.inj ((withView_lane hl _).symm.trans hl')
  exact commandOf_sameOperands i s.grant _

/-- Settles O36: an error or a lookup leaves `DIGEST` and never sets `DVALID`. -/
theorem digestChangesOnlyOnSuccess : Obligations.DigestChangesOnlyOnSuccess := by
  unfold Obligations.DigestChangesOnlyOnSuccess
  intro i s t l l' hl h hl' hchange
  obtain rfl := Host.Outcome.next.inj ((exec_of_lane i hl).symm.trans h)
  obtain rfl := Option.some.inj ((withView_lane hl _).symm.trans hl')
  exact commandOf_digest_changes hchange

/-! ## Commands of different lanes (R46) -/

/-- A command that does not rebuild, issued on an existing lane: the cache entry stays, so its lane alone changes. -/
theorem exec_of_neverRebuilds {s : State} {k : Nat} {l : Lane} (hl : s.lanes[k]? = some l) {i : Instr}
    (hi : NeverRebuilds i) :
    exec i { s with cur := k } =
      .next (withLane { s with cur := k } (commandOf i s.grant { cache := s.cache, lane := l }).lane) := by
  rw [exec_of_lane (s := { s with cur := k }) i hl, withView_eq_withLane (commandOf_cache_of_neverRebuilds hi _ _)]

/-- Settles O42: each command reads and writes its own lane alone, under a cache entry that neither changes. -/
theorem commandsThatDoNotRebuildCommuteAcrossLanes : Obligations.CommandsThatDoNotRebuildCommuteAcrossLanes := by
  unfold Obligations.CommandsThatDoNotRebuildCommuteAcrossLanes
  intro s a b i j hab ha hb hi hj
  have hla : s.lanes[a]? = some s.lanes[a] := List.getElem?_eq_getElem ha
  have hlb : s.lanes[b]? = some s.lanes[b] := List.getElem?_eq_getElem hb
  refine ⟨_, _, _, _, exec_of_neverRebuilds hla hi,
    exec_of_neverRebuilds ((List.getElem?_set_ne hab).trans hlb) hj, exec_of_neverRebuilds hlb hj,
    exec_of_neverRebuilds ((List.getElem?_set_ne hab.symm).trans hla) hi, ?_, rfl⟩
  exact List.set_comm _ _ hab

end Sys2Proof.Spec
end

section
/-!
PROOFS. The ternary map (40_seed_materializer.md R67) and the bit codec as a whole (41_bitcodec.md R82, R83): both rest on
the bits of a number that is given by its digits.
-/

namespace Sys2Proof.Machine

/-! ## The bits of a number given by its digits -/

/-- A number of `n` digits of `w` bits is below `2 ^ (w * n)`. -/
theorem sum_digits_lt {w : Nat} {d : Nat → Nat} (hd : ∀ m, d m < 2 ^ w) (n : Nat) :
    ∑ m ∈ Finset.range n, d m * (2 ^ w) ^ m < 2 ^ (w * n) := by
  induction n with
  | zero => simp
  | succ n ih =>
    calc ∑ m ∈ Finset.range (n + 1), d m * (2 ^ w) ^ m
        < (2 ^ w) ^ n + d n * (2 ^ w) ^ n := by
          rw [Finset.sum_range_succ, ← pow_mul]
          exact Nat.add_lt_add_right ih _
      _ = (d n + 1) * (2 ^ w) ^ n := by ring
      _ ≤ 2 ^ w * (2 ^ w) ^ n := Nat.mul_le_mul_right _ (hd n)
      _ = 2 ^ (w * (n + 1)) := by rw [← pow_succ', ← pow_mul]

/-- Bit `w * q + r` of a number of digits of `w` bits is bit `r` of digit `q`. -/
theorem testBit_sum_digits {w : Nat} {d : Nat → Nat} (hd : ∀ m, d m < 2 ^ w) {n q r : Nat} (hq : q < n) (hr : r < w) :
    (∑ m ∈ Finset.range n, d m * (2 ^ w) ^ m).testBit (w * q + r) = (d q).testBit r := by
  induction n with
  | zero => omega
  | succ n ih =>
    rw [Finset.sum_range_succ, Nat.add_comm, Nat.mul_comm, ← pow_mul,
      Nat.testBit_two_pow_mul_add _ (by simpa only [pow_mul] using sum_digits_lt hd n)]
    by_cases hlast : q = n
    · subst hlast
      rw [if_neg (by omega), Nat.add_sub_cancel_left]
    · have hlt : q < n := by omega
      have hmul : w * q + w ≤ w * n := by
        rw [← Nat.mul_succ]
        exact Nat.mul_le_mul_left w hlt
      rw [if_pos (by omega), ← ih hlt]

/-! ## The codec (R80 to R83) -/

/-- Bit `7 - i` of a packed byte is the bit packed at `i`. -/
theorem getLsbD_packByte (b : Nat → Bool) {i : Nat} (hi : i < 8) : (packByte b).getLsbD (7 - i) = b i := by
  have hdigits : (packByte b).toNat = ∑ m ∈ Finset.range 8, (b (7 - m)).toNat * (2 ^ 1) ^ m := by
    rw [packByte_toNat, ← Finset.sum_range_reflect]
    refine Finset.sum_congr rfl fun m hm => ?_
    have hm := Finset.mem_range.1 hm
    rw [pow_one, show 8 - 1 - m = 7 - m from rfl, show 7 - (7 - m) = m by omega]
  have hbit := testBit_sum_digits (w := 1) (d := fun m => (b (7 - m)).toNat) (fun m => Bool.toNat_lt _)
    (n := 8) (q := 7 - i) (r := 0) (by omega) Nat.one_pos
  rw [BitVec.getLsbD, hdigits, show 7 - i = 1 * (7 - i) + 0 by omega, hbit, show 7 - (7 - i) = i by omega]
  cases b i <;> rfl

/-- Packing the bits of a byte, the most significant first, gives the byte. -/
theorem packByte_bits (x : Byte) {b : Nat → Bool} (h : ∀ i < 8, b i = x.getLsbD (7 - i)) : packByte b = x := by
  apply BitVec.eq_of_getLsbD_eq
  intro j hj
  have hrev : j = 7 - (7 - j) := by omega
  rw [hrev, getLsbD_packByte b (by omega), h _ (by omega)]

theorem decodeBits_encodeBits (x : Bytes32) : decodeBits (encodeBits x) = x := by
  refine bytes_ext fun m hm => ?_
  rw [byteAt_decodeBits _ hm]
  refine packByte_bits _ fun i hi => ?_
  rw [Spec.bitAt_encodeBits_byte_bit x (by omega) hi, show 31 - (31 - m) = m by omega]

theorem encodeBits_decodeBits (v : Bits 256) : encodeBits (decodeBits v) = v := by
  refine bits_ext fun t ht => ?_
  have hindex : 8 * (31 - (31 - t / 8)) + t % 8 = t := by omega
  rw [bitAt_encodeBits _ ht, byteAt_decodeBits v (by omega), getLsbD_packByte _ (Nat.mod_lt t (by decide)), hindex]

/-! ## The ternary map (R67) -/

theorem tern_of_mod {b : Byte} {r : Nat} (h : b.toNat % 4 = r) :
    tern b = if r = 2 then .pos else if r = 3 then .neg else .zero := by
  rw [tern, h]

/-- A weight is not zero exactly when bit 1 of its byte is set. -/
theorem ternaryValue_tern_ne_zero_iff (b : Byte) : ternaryValue (tern b) ≠ 0 ↔ b.getLsbD 1 = true := by
  rw [BitVec.getLsbD, Nat.testBit_eq_decide_div_mod_eq, decide_eq_true_iff, tern]
  split_ifs <;> simp [ternaryValue] <;> omega

/-- A weight is negative exactly when both low bits of its byte are set. -/
theorem ternaryValue_tern_neg_iff (b : Byte) :
    ternaryValue (tern b) < 0 ↔ b.getLsbD 1 = true ∧ b.getLsbD 0 = true := by
  simp only [BitVec.getLsbD, Nat.testBit_eq_decide_div_mod_eq, decide_eq_true_iff, tern]
  split_ifs <;> simp [ternaryValue] <;> omega

/-- The weight is decided by the two low bits. -/
theorem tern_congr {b c : Byte} (h : b.extractLsb' 0 2 = c.extractLsb' 0 2) : tern b = tern c := by
  have hmod : b.toNat % 4 = c.toNat % 4 := by
    simpa only [BitVec.extractLsb'_toNat, Nat.shiftRight_zero] using congrArg BitVec.toNat h
  rw [tern, tern, hmod]

end Sys2Proof.Machine

namespace Sys2Proof.Spec

open Sys2Proof.Machine

/-- Settles O51: packing the bits of a byte most significant first undoes unpacking them so, and reversing the bytes
undoes itself. -/
theorem codecRoundTrip : Obligations.CodecRoundTrip := by
  unfold Obligations.CodecRoundTrip
  exact ⟨decodeBits_encodeBits, encodeBits_decodeBits⟩

/-- Settles O52: the bytes are the integer's digits in base 256, and index `t` of the code is bit `(255 - t) % 8` of byte
`(255 - t) / 8`. -/
theorem encodeListsTheBitsOfTheInteger : Obligations.EncodeListsTheBitsOfTheInteger := by
  unfold Obligations.EncodeListsTheBitsOfTheInteger
  intro x t ht
  have hindex : 255 - t = 8 * (31 - t / 8) + (7 - t % 8) := by omega
  have hbit := testBit_sum_digits (w := 8) (d := fun m => (byteAt x m).toNat) (fun m => (byteAt x m).isLt)
    (n := 32) (q := 31 - t / 8) (r := 7 - t % 8) (by omega) (by omega)
  rw [bitAt_encodeBits x ht, hindex]
  exact hbit.symm

/-- Settles O47: the map looks at the byte modulo 4 only, which is its two low bits. -/
theorem ternaryMap : Obligations.TernaryMap := by
  unfold Obligations.TernaryMap
  refine ⟨fun b => ⟨fun h => ?_, fun h => ?_, fun h => ?_, fun h => ?_⟩, fun b c => tern_congr,
    fun b => ⟨ternaryValue_tern_ne_zero_iff b, ternaryValue_tern_neg_iff b⟩, by decide⟩
  all_goals rw [tern_of_mod h]; rfl

end Sys2Proof.Spec
end

section
/-!
PROOFS. Sums of a layer (42_forward_pipeline.md R91 to R101) and the layers of two fixed models (95_test_vectors.md section
2): rows of zeros, rows of one weight, rows of +1, and the digests under all +1 weights (T31) and under IDENT (T34).
-/

namespace Sys2Proof.Machine

open Sys2Proof.Spec

/-! ## The sign of a unit value (R90, R93) -/

@[simp] theorem positiveSum_unitValue (b : Bool) : positiveSum (unitValue b) = b := by
  cases b <;> rfl

@[simp] theorem positiveSum_zero : positiveSum 0 = false := rfl

/-! ## Rows of zeros and rows of one weight (R93) -/

section Rows

variable {inDim outDim : Nat} {m : Matrix} (v : Bits inDim) {j : Nat}

/-- A row of zero weights leaves the residual alone. -/
theorem bitAt_layerForward_of_zero_row (hj : j < outDim) (hrow : ∀ i < inDim, m j i = .zero) :
    bitAt (layerForward outDim m v) j = if inDim = outDim then bitAt v j else false := by
  have hdot : ∑ i ∈ Finset.range inDim, ternaryValue (m j i) * unitValue (bitAt v i) = 0 :=
    Finset.sum_eq_zero fun i hi => by
      rw [hrow i (Finset.mem_range.1 hi)]
      exact Int.zero_mul _
  rw [bitAt_layerForward m v hj, layerSum_eq_sum, hdot, zero_add]
  split
  · exact positiveSum_unitValue _
  · exact positiveSum_zero

/-- In a layer that is not square, a row whose one weight is a +1 in column `c` copies input bit `c`. -/
theorem bitAt_layerForward_of_unit_row {c : Nat} (hj : j < outDim) (hc : c < inDim) (hdim : inDim ≠ outDim)
    (hrow : ∀ i < inDim, m j i = if i = c then .pos else .zero) :
    bitAt (layerForward outDim m v) j = bitAt v c := by
  have hdot : ∑ i ∈ Finset.range inDim, ternaryValue (m j i) * unitValue (bitAt v i) = unitValue (bitAt v c) := by
    rw [Finset.sum_eq_single_of_mem c (Finset.mem_range.2 hc)]
    · rw [hrow c hc, if_pos rfl]
      exact Int.one_mul _
    · intro i hi hne
      rw [hrow i (Finset.mem_range.1 hi), if_neg hne]
      exact Int.zero_mul _
  rw [bitAt_layerForward m v hj, layerSum_eq_sum, hdot, if_neg hdim, add_zero, positiveSum_unitValue]

end Rows

/-! ## The bound of a sum (R99) -/

theorem abs_unitValue (b : Bool) : |unitValue b| = 1 := by
  cases b <;> rfl

theorem abs_ternaryValue_mul_unitValue_le (x : Ternary) (b : Bool) : |ternaryValue x * unitValue b| ≤ 1 := by
  cases x <;> cases b <;> decide

/-- Each term and the residual are at most 1 from 0. -/
theorem abs_layerSum_le {inDim : Nat} (outDim : Nat) (m : Matrix) (v : Bits inDim) (j : Nat) :
    |layerSum outDim m v j| ≤ (inDim : Int) + if inDim = outDim then 1 else 0 := by
  have hdot : |∑ i ∈ Finset.range inDim, ternaryValue (m j i) * unitValue (bitAt v i)| ≤ (inDim : Int) := by
    calc |∑ i ∈ Finset.range inDim, ternaryValue (m j i) * unitValue (bitAt v i)|
        ≤ ∑ i ∈ Finset.range inDim, |ternaryValue (m j i) * unitValue (bitAt v i)| := Finset.abs_sum_le_sum_abs _ _
      _ ≤ ∑ i ∈ Finset.range inDim, 1 := Finset.sum_le_sum fun i _ => abs_ternaryValue_mul_unitValue_le _ _
      _ = (inDim : Int) := by simp
  have hres : |if inDim = outDim then unitValue (bitAt v j) else 0| ≤ if inDim = outDim then 1 else 0 := by
    split
    · exact (abs_unitValue _).le
    · exact abs_zero.le
  rw [layerSum_eq_sum]
  exact (abs_add_le _ _).trans (add_le_add hdot hres)

/-! ## Counting the bits of a row (R101) -/

/-- Twice the ones among the chosen columns, less the columns, is the sum of their unit values. -/
theorem two_mul_countTo_sub (n : Nat) (p b : Nat → Bool) :
    2 * (countTo n fun i => p i && b i : Int) - countTo n p =
      ∑ i ∈ Finset.range n, if p i then unitValue (b i) else 0 := by
  induction n with
  | zero => rfl
  | succ n ih =>
    have hterm : 2 * ((p n && b n).toNat : Int) - (p n).toNat = if p n then unitValue (b n) else 0 := by
      cases p n <;> cases b n <;> rfl
    rw [Finset.sum_range_succ, ← ih, ← hterm, countTo, countTo]
    push_cast
    ring

theorem countedDot_eq_sum {inDim : Nat} (m : Matrix) (v : Bits inDim) (j : Nat) :
    countedDot m v j = ∑ i ∈ Finset.range inDim, ternaryValue (m j i) * unitValue (bitAt v i) := by
  rw [countedDot, two_mul_countTo_sub, two_mul_countTo_sub, ← Finset.sum_sub_distrib]
  refine Finset.sum_congr rfl fun i _ => ?_
  cases m j i <;> simp [ternaryValue]

/-- With every column chosen: the sum of a vector's unit values is twice its ones less its length. -/
theorem sum_unitValue {n : Nat} (v : Bits n) :
    ∑ i ∈ Finset.range n, unitValue (bitAt v i) = 2 * (popcount v : Int) - n := by
  have hall : ∀ k, countTo k (fun _ => true) = k := fun k => by
    induction k with
    | zero => rfl
    | succ k ih => rw [countTo, ih]; rfl
  have h := two_mul_countTo_sub n (fun _ => true) (bitAt v)
  rw [hall] at h
  simpa [popcount] using h.symm

/-! ## Constant vectors under rows of +1 -/

theorem bitAt_replicate {n t : Nat} (h : t < n) (c : Bool) : bitAt (Vector.replicate n c) t = c := by
  rw [bitAt_of_lt _ h, Vector.getElem_replicate]

theorem byteAt_replicate {i : Nat} (h : i < 32) (b : Byte) : byteAt (Vector.replicate 32 b) i = b := by
  rw [byteAt_of_lt _ h, Vector.getElem_replicate]

/-- The sum of a row of +1 over a constant vector: every term, and the residual too, is the vector's unit value. -/
theorem layerSum_pos_replicate {n outDim j : Nat} (hj : j < outDim) (c : Bool) :
    layerSum outDim (fun _ _ => .pos) (Vector.replicate n c) j =
      (n + if n = outDim then 1 else 0) * unitValue c := by
  have hdot : ∑ i ∈ Finset.range n, ternaryValue .pos * unitValue (bitAt (Vector.replicate n c) i) =
      n * unitValue c := by
    rw [Finset.sum_congr rfl fun i hi => by rw [bitAt_replicate (Finset.mem_range.1 hi)], Finset.sum_const,
      Finset.card_range, nsmul_eq_mul]
    exact congrArg _ (Int.one_mul _)
  have hres : (if n = outDim then unitValue (bitAt (Vector.replicate n c) j) else 0) =
      (if n = outDim then 1 else 0) * unitValue c := by
    split
    · next hsq => rw [bitAt_replicate (hsq ▸ hj), one_mul]
    · exact (zero_mul _).symm
  rw [layerSum_eq_sum, hdot, hres, add_mul]

/-- Rows of +1 keep a constant vector. -/
theorem layerForward_pos_replicate {n : Nat} (hn : 0 < n) (outDim : Nat) (c : Bool) :
    layerForward outDim (fun _ _ => .pos) (Vector.replicate n c) = Vector.replicate outDim c := by
  refine bits_ext fun j hj => ?_
  have hterms : (0 : Int) < n + if n = outDim then 1 else 0 := by split <;> omega
  rw [bitAt_layerForward _ _ hj, bitAt_replicate hj, layerSum_pos_replicate hj, Bool.eq_iff_iff, positiveSum_iff,
    mul_pos_iff_of_pos_left hterms, ← positiveSum_iff, positiveSum_unitValue]

/-- Rows of +1 in a layer that is not square take the majority of the input, strictly. -/
theorem layerForward_pos_of_not_square {n outDim : Nat} (hdim : n ≠ outDim) (v : Bits n) :
    layerForward outDim (fun _ _ => .pos) v = Vector.replicate outDim (decide (n < 2 * popcount v)) := by
  refine bits_ext fun j hj => ?_
  have hdot : ∑ i ∈ Finset.range n, ternaryValue .pos * unitValue (bitAt v i) = 2 * (popcount v : Int) - n := by
    rw [← sum_unitValue]
    exact Finset.sum_congr rfl fun i _ => Int.one_mul _
  rw [bitAt_layerForward _ v hj, bitAt_replicate hj, layerSum_eq_sum, hdot, if_neg hdim, add_zero, positiveSum]
  refine decide_eq_decide.2 ?_
  omega

/-- A constant vector decodes to a constant digest. -/
theorem decodeBits_replicate {c : Bool} {b : Byte} (h : ∀ i < 8, c = b.getLsbD (7 - i)) :
    decodeBits (Vector.replicate 256 c) = Vector.replicate 32 b := by
  refine bytes_ext fun m hm => ?_
  rw [byteAt_decodeBits _ hm, byteAt_replicate hm]
  refine packByte_bits b fun i hi => ?_
  rw [bitAt_replicate (by omega)]
  exact h i hi

/-! ## All +1 weights (T31) -/

/-- The expansion takes the majority of the input's bits, and every hidden round keeps it. -/
theorem hiddenState_pos (x : Bytes32) (n : Nat) :
    hiddenState (fun _ => .pos) x n = Vector.replicate 1024 (decide (128 < popcount (encodeBits x))) := by
  induction n with
  | zero =>
    have hhalf : (256 < 2 * popcount (encodeBits x)) = (128 < popcount (encodeBits x)) := propext (by omega)
    have hmajority := layerForward_pos_of_not_square (outDim := 1024) (by decide) (encodeBits x)
    simp only [hhalf] at hmajority
    exact hmajority
  | succ n ih =>
    rw [hiddenState, ih]
    exact layerForward_pos_replicate (by decide) 1024 _

theorem finalBits_pos (x : Bytes32) :
    finalBits (fun _ => .pos) x = Vector.replicate 256 (decide (128 < popcount (encodeBits x))) := by
  rw [finalBits, hiddenState_pos]
  exact layerForward_pos_replicate (by decide) 256 _

/-! ## The test keystream IDENT (T34) -/

theorem expansionMatrix_ident {j i : Nat} (hj : j < 1024) (hi : i < 256) :
    expansionMatrix identWeights j i = if i = j % 256 then .pos else .zero := by
  have hcol : (256 * j + i) % 256 = i := by omega
  have hrow : (256 * j + i) / 256 = j := by omega
  rw [(views_read_at_index _ 0 j i).1, Entry.index, identWeights, if_pos (by omega), hcol, hrow]

theorem hiddenMatrix_ident {r j i : Nat} (hr : r < 64) (hj : j < 1024) (hi : i < 1024) :
    hiddenMatrix identWeights r j i = .zero := by
  rw [(views_read_at_index _ r j i).2.1, Entry.index, identWeights, if_neg (by omega), if_neg (by omega)]

theorem compressionMatrix_ident {j i : Nat} (hi : i < 1024) :
    compressionMatrix identWeights j i = if i = j then .pos else .zero := by
  rw [(views_read_at_index _ 0 j i).2.2, Entry.index, identWeights, if_neg (by omega), if_pos (by omega)]
  refine if_congr ?_ rfl rfl
  omega

/-- The expansion repeats the code four times, and the residual of every hidden round keeps it. -/
theorem bitAt_hiddenState_ident (x : Bytes32) {n : Nat} (hn : n ≤ 64) {j : Nat} (hj : j < 1024) :
    bitAt (hiddenState identWeights x n) j = bitAt (encodeBits x) (j % 256) := by
  induction n with
  | zero =>
    exact bitAt_layerForward_of_unit_row _ hj (Nat.mod_lt j (by decide)) (by decide)
      fun i hi => expansionMatrix_ident hj hi
  | succ n ih =>
    rw [hiddenState, bitAt_layerForward_of_zero_row _ hj fun i hi => hiddenMatrix_ident hn hj hi, if_pos rfl]
    exact ih (by omega)

theorem finalBits_ident (x : Bytes32) : finalBits identWeights x = encodeBits x := by
  refine bits_ext fun j hj => ?_
  rw [finalBits, bitAt_layerForward_of_unit_row _ hj (c := j) (by omega) (by decide)
    fun i hi => compressionMatrix_ident hi, bitAt_hiddenState_ident x (le_refl 64) (by omega), Nat.mod_eq_of_lt hj]

end Sys2Proof.Machine

namespace Sys2Proof.Spec

open Sys2Proof.Machine

/-- Settles O54: the dot product is 0, and the sign of the residual's unit value is the bit. -/
theorem zeroRowsGiveZeroOrTheInputBit : Obligations.ZeroRowsGiveZeroOrTheInputBit := by
  unfold Obligations.ZeroRowsGiveZeroOrTheInputBit
  exact fun _ _ _ v _ => bitAt_layerForward_of_zero_row v

/-- Settles O55: the 1024 terms of a row of +1 over all ones, and the residual, are all +1. -/
theorem layerSumsAreBounded : Obligations.LayerSumsAreBounded := by
  unfold Obligations.LayerSumsAreBounded
  exact ⟨fun _ => abs_layerSum_le, (layerSum_pos_replicate (by decide) true).trans (by decide)⟩

/-- Settles O56: each sign's columns are counted apart, and the two counts are the two halves of the sum. -/
theorem countedDotProductEqualsThePlainSum : Obligations.CountedDotProductEqualsThePlainSum := by
  unfold Obligations.CountedDotProductEqualsThePlainSum
  exact fun _ => countedDot_eq_sum

/-- Settles O57: the final vector repeats the majority bit, all ones or all zeros. -/
theorem allPlusOneModelDigest : Obligations.AllPlusOneModelDigest := by
  unfold Obligations.AllPlusOneModelDigest
  intro x
  rw [tensHash, finalBits_pos]
  split
  · next hmajority => rw [decide_eq_true hmajority, decodeBits_replicate (b := 0xFF#8) (by decide)]
  · next hminority => rw [decide_eq_false hminority, decodeBits_replicate (b := 0x00#8) (by decide)]

/-- Settles O58: the final vector is the code of the input, which decodes to it. -/
theorem identityModelDigest : Obligations.IdentityModelDigest := by
  unfold Obligations.IdentityModelDigest
  intro x
  rw [tensHash, finalBits_ident, decodeBits_encodeBits]

end Sys2Proof.Spec
end
